-- ==== Sys2Proof/Config.lean ====
section
/-! DEFINITION. The parameters of the Intcode execution engine (00_scope.md R5), and the one
free value of the model: what the host does at the ports once the state's own list of its
draws is used up (log 4). -/

namespace Sys2Proof

/-- What Add, Multiply and RelativeBaseOffset do with an exact result that is not a word (R5, R69). -/
inductive OverflowMode where
  | fault
  | wrap
  deriving DecidableEq, Repr

/-- One draw of the environment at one attempt of an Input or an Output: the step's `env` (R61). -/
structure HostDraw where
  /-- the word the host offers at `IN`, if any (`env.in`) -/
  offered : Option (BitVec 64)
  /-- whether the host accepts at `OUT` (`env.out_ready`) -/
  outReady : Bool
  /-- whether `TIMEOUT` has fired for this hold (`env.timed_out`) -/
  timedOut : Bool
  deriving DecidableEq, Repr, Inhabited

namespace Config

/-- `WORD_BITS` (R5; the spec's decision D3). -/
def wordBits : Nat := 64

/-- `WMIN`, the least word (R5). -/
def wmin : Int := -(((2 ^ (wordBits - 1) : Nat)) : Int)

/-- `WMAX`, the greatest word (R5). -/
def wmax : Int := ((2 ^ (wordBits - 1) : Nat) : Int) - 1

/-- `MEM_LIMIT` = 2^28 words, exclusive: the addresses are `0 <= a < memLimit` (R5; D8, C1). -/
def memLimit : Nat := 268435456

/-- `OVERFLOW_MODE`: this hardware takes `Fault` (R5, R69; D4). -/
def overflowMode : OverflowMode := .fault

/-- `MODE_SLOTS`: parameter-mode digits decoded in every instruction word (R5). -/
def modeSlots : Nat := 4

/-- `MAX_ARITY`: the largest parameter count of an opcode (R5). -/
def maxArity : Nat := 3

/-- `CHANNEL_BUFFER`: host side; no rule of the block reads it (R80). -/
def channelBuffer : Nat := 0

/-- The open part of `IO_TIMEOUT` (log 12). -/
opaque ioTimeoutLessOne : Nat

/-- `IO_TIMEOUT`: a positive duration left open (R5, R6). No definition of the model reads it:
the model sees the `TIMEOUT` event only. -/
def ioTimeout : Nat := ioTimeoutLessOne + 1

/-- FREE VALUE (log 4): the host's draw number `n` after the state's own list of draws is used
up. No body: nothing can be proved of it, so a claim holds whatever the host does. -/
opaque freeDraw : Nat → HostDraw

end Config
end Sys2Proof
end

