-- ==== Sys2Proof/Word.lean ====
section
/-! DEFINITION. The word: "a signed integer; the unit of storage, computation, and addressing"
(00_scope.md glossary), two's complement on `WORD_BITS` = 64 bits (R5, R75). -/

namespace Sys2Proof

/-- A word. Its value as an integer in `[WMIN, WMAX]` is `BitVec.toInt`. -/
abbrev Word := BitVec 64

/-- The word of an integer that fits; an integer outside `[WMIN, WMAX]` is never given to it
unguarded (R69). -/
def Word.ofInteger (r : Int) : Word := BitVec.ofInt 64 r

end Sys2Proof
end

