-- ==== Sys2Proof/Syntax.lean ====
section
/-! DEFINITION. The syntax of `Intcode-final-10`: ten opcodes, three parameter modes, and one
constructor of `Instr` for each row of spec/opcode_table.json (30_encoding.md R44 to R49). -/

namespace Sys2Proof

/-- The closed set of opcodes (R2, R47). -/
inductive Opcode where
  | add | mul | input | output | jt | jf | lt | eq | arb | halt
  deriving DecidableEq, Repr

/-- How a parameter slot is used (R47, R48). -/
inductive Role where
  | read
  | write
  deriving DecidableEq, Repr

/-- The parameter modes (R49). -/
inductive Mode where
  | position
  | immediate
  | relative
  deriving DecidableEq, Repr

/-- The four mode tags of an instruction word, slots 0 to 3 (R45). Every slot's digit is decoded,
also where the opcode has no such parameter (R51, R53). -/
structure Modes where
  m0 : Mode
  m1 : Mode
  m2 : Mode
  m3 : Mode
  deriving DecidableEq, Repr

/-- The opcode code `OC` (R47). -/
def Opcode.code : Opcode → Nat
  | .add => 1
  | .mul => 2
  | .input => 3
  | .output => 4
  | .jt => 5
  | .jf => 6
  | .lt => 7
  | .eq => 8
  | .arb => 9
  | .halt => 99

/-- The parameter shape (R47, R48); the write parameter, if any, is the last slot. -/
def Opcode.shape : Opcode → List Role
  | .add => [.read, .read, .write]
  | .mul => [.read, .read, .write]
  | .input => [.write]
  | .output => [.read]
  | .jt => [.read, .read]
  | .jf => [.read, .read]
  | .lt => [.read, .read, .write]
  | .eq => [.read, .read, .write]
  | .arb => [.read]
  | .halt => []

/-- The arity `N` (R48). -/
def Opcode.arity (op : Opcode) : Nat := op.shape.length

/-- The mode digit (R49). -/
def Mode.digit : Mode → Nat
  | .position => 0
  | .immediate => 1
  | .relative => 2

/-- An instruction: its four mode tags and its `N` raw parameter words (R44, R46). -/
inductive Instr where
  | add (m : Modes) (p0 p1 p2 : Word)
  | mul (m : Modes) (p0 p1 p2 : Word)
  | input (m : Modes) (p0 : Word)
  | output (m : Modes) (p0 : Word)
  | jt (m : Modes) (p0 p1 : Word)
  | jf (m : Modes) (p0 p1 : Word)
  | lt (m : Modes) (p0 p1 p2 : Word)
  | eq (m : Modes) (p0 p1 p2 : Word)
  | arb (m : Modes) (p0 : Word)
  | halt (m : Modes)
  deriving DecidableEq, Repr

/-- The opcode of an instruction. -/
def Instr.opcode : Instr → Opcode
  | .add _ _ _ _ => .add
  | .mul _ _ _ _ => .mul
  | .input _ _ => .input
  | .output _ _ => .output
  | .jt _ _ _ => .jt
  | .jf _ _ _ => .jf
  | .lt _ _ _ _ => .lt
  | .eq _ _ _ _ => .eq
  | .arb _ _ => .arb
  | .halt _ => .halt

/-- The mode tags of an instruction. -/
def Instr.modes : Instr → Modes
  | .add m _ _ _ => m
  | .mul m _ _ _ => m
  | .input m _ => m
  | .output m _ => m
  | .jt m _ _ => m
  | .jf m _ _ => m
  | .lt m _ _ _ => m
  | .eq m _ _ _ => m
  | .arb m _ => m
  | .halt m => m

/-- The raw parameter words of an instruction, slot 0 first. -/
def Instr.raws : Instr → List Word
  | .add _ a b c => [a, b, c]
  | .mul _ a b c => [a, b, c]
  | .input _ a => [a]
  | .output _ a => [a]
  | .jt _ a b => [a, b]
  | .jf _ a b => [a, b]
  | .lt _ a b c => [a, b, c]
  | .eq _ a b c => [a, b, c]
  | .arb _ a => [a]
  | .halt _ => []

/-- The mode tag of a slot. -/
def Modes.slot (m : Modes) : Nat → Mode
  | 0 => m.m0
  | 1 => m.m1
  | 2 => m.m2
  | _ => m.m3

end Sys2Proof
end

