-- ==== Sys2Proof/WellFormed.lean ====
section
/-! DEFINITION. Well-formed instructions: those with no illegal part in the sense of
30_encoding.md R55. All of R55 but one row is about words that are no `Instr` at all (the
decoder refuses them by name); the one row left is the Immediate write parameter, which decodes
and then faults `InvalidWriteTarget` when it runs (R66). Also the assembler's canonical form
(R57). -/

namespace Sys2Proof

/-- A mode tag a write parameter may have: not Immediate (R49, R55, R66). -/
def Mode.writable : Mode → Bool
  | .position => true
  | .immediate => false
  | .relative => true

/-- No part of the encoding is illegal (R55): the write parameter, if any, is not Immediate. -/
def Instr.wellFormed : Instr → Bool
  | .add m _ _ _ => m.m2.writable
  | .mul m _ _ _ => m.m2.writable
  | .input m _ => m.m0.writable
  | .output _ _ => true
  | .jt _ _ _ => true
  | .jf _ _ _ => true
  | .lt m _ _ _ => m.m2.writable
  | .eq m _ _ _ => m.m2.writable
  | .arb _ _ => true
  | .halt _ => true

/-- The mode tags of the slots at or beyond `n` are Position, digit 0. -/
def Modes.unusedZero (m : Modes) (n : Nat) : Bool :=
  (List.range Config.modeSlots).all fun k => k < n || m.slot k == Mode.position

/-- The form the assembler of R57 emits: well formed, and every unused slot's digit is 0. -/
def Instr.canonical (i : Instr) : Bool :=
  i.wellFormed && i.modes.unusedZero i.opcode.arity

end Sys2Proof
end

