-- ==== Sys2Proof/Decode.lean ====
section
/-! DEFINITION. The decoder (30_encoding.md R45, R50 to R52) and, after it, the encoder
(R45, R47, R49). An instruction word's fields are decimal digits, not bits. -/

namespace Sys2Proof

/-- Why words are not an instruction, by name. -/
inductive DecodeError where
  /-- `W < 0` (R50) -/
  | negativeWord
  /-- `W mod 100` is no opcode code (R47, R51) -/
  | unknownCode
  /-- the digit of this slot is 3 to 9 (R49, R51) -/
  | unknownMode (slot : Nat)
  /-- `W >= 10^6` (R52) -/
  | excessDigits
  /-- fewer words than `1 + N` were given (a list of words that ends inside an instruction) -/
  | truncated
  deriving DecidableEq, Repr

/-- Decimal digit `k` of a natural number, digit 0 least significant (R8). -/
def digit (n k : Nat) : Nat := n / 10 ^ k % 10

/-- `OpcodeOf` (R47). -/
def opcodeOf : Nat → Option Opcode
  | 1 => some .add
  | 2 => some .mul
  | 3 => some .input
  | 4 => some .output
  | 5 => some .jt
  | 6 => some .jf
  | 7 => some .lt
  | 8 => some .eq
  | 9 => some .arb
  | 99 => some .halt
  | _ => none

/-- `ModeOf` (R49). -/
def modeOf : Nat → Option Mode
  | 0 => some .position
  | 1 => some .immediate
  | 2 => some .relative
  | _ => none

/-- The four mode tags of a non-negative instruction word, checked in slot order, and then the
digits above slot 3 (R51, R52). -/
def modesOf (n : Nat) : Except DecodeError Modes :=
  match modeOf (digit n 2) with
  | none => .error (.unknownMode 0)
  | some m0 =>
    match modeOf (digit n 3) with
    | none => .error (.unknownMode 1)
    | some m1 =>
      match modeOf (digit n 4) with
      | none => .error (.unknownMode 2)
      | some m2 =>
        match modeOf (digit n 5) with
        | none => .error (.unknownMode 3)
        | some m3 => if n / 10 ^ 6 = 0 then .ok ⟨m0, m1, m2, m3⟩ else .error .excessDigits

/-- `Decode(W)` (R51): the sign, then the opcode code, then the mode digits, then the excess
digits. -/
def decodeHead (w : Word) : Except DecodeError (Opcode × Modes) :=
  if w.toInt < 0 then .error .negativeWord
  else
    match opcodeOf (w.toNat % 100) with
    | none => .error .unknownCode
    | some op =>
      match modesOf w.toNat with
      | .error e => .error e
      | .ok m => .ok (op, m)

/-- The instruction of an opcode, its mode tags and its raw parameter words, slot 0 first. -/
def build (op : Opcode) (m : Modes) (ws : List Word) : Instr :=
  match op with
  | .add => .add m (ws.getD 0 0) (ws.getD 1 0) (ws.getD 2 0)
  | .mul => .mul m (ws.getD 0 0) (ws.getD 1 0) (ws.getD 2 0)
  | .input => .input m (ws.getD 0 0)
  | .output => .output m (ws.getD 0 0)
  | .jt => .jt m (ws.getD 0 0) (ws.getD 1 0)
  | .jf => .jf m (ws.getD 0 0) (ws.getD 1 0)
  | .lt => .lt m (ws.getD 0 0) (ws.getD 1 0) (ws.getD 2 0)
  | .eq => .eq m (ws.getD 0 0) (ws.getD 1 0) (ws.getD 2 0)
  | .arb => .arb m (ws.getD 0 0)
  | .halt => .halt m

/-- Reads one instruction from the front of a list of words and answers the words left over
(R44, R56). Total: what is no instruction is refused by name. -/
def decode : List Word → Except DecodeError (Instr × List Word)
  | [] => .error .truncated
  | w :: rest =>
    match decodeHead w with
    | .error e => .error e
    | .ok (op, m) =>
      if rest.length < op.arity then .error .truncated
      else .ok (build op m rest, rest.drop op.arity)

/-- `W = OC + 100*M0 + 1000*M1 + 10000*M2 + 100000*M3` (R45). -/
def headNumber (op : Opcode) (m : Modes) : Nat :=
  op.code + 100 * m.m0.digit + 1000 * m.m1.digit + 10000 * m.m2.digit + 100000 * m.m3.digit

/-- The instruction word of an opcode and its mode tags (R45). -/
def encodeHead (op : Opcode) (m : Modes) : Word := BitVec.ofNat 64 (headNumber op m)

/-- The words of an instruction: the instruction word and its raw parameter words (R44). -/
def encode (i : Instr) : List Word := encodeHead i.opcode i.modes :: i.raws

/-- The words an instruction takes (R56). -/
def Instr.length (i : Instr) : Nat := 1 + i.opcode.arity

/-- The four words (the longest instruction, R56) of a number whose bit 0 is the least
significant bit of the first word, later words counting on from it; bits from `nbits` on are 0
(log 13). -/
def tableWords (nbits w : Nat) : List Word :=
  (List.range 4).map fun k => BitVec.ofNat 64 (w % 2 ^ nbits / 2 ^ (64 * k))

/-- The instruction the decoder reads from the words of `tableWords`. -/
def decodeTableWord (nbits w : Nat) : Option Instr :=
  match decode (tableWords nbits w) with
  | .error _ => none
  | .ok (i, _) => some i

end Sys2Proof
end

