-- ==== Sys2Proof/Machine/State.lean ====
section
/-! DEFINITION. The state of the engine (10_state.md R10) and of its host-facing ports (R22,
R24, R113), the outcomes' reasons, and the state after reset (70_reset_and_hazards.md R111). -/

namespace Sys2Proof.Machine

open Sys2Proof

/-- The word store, sparse: (address, word) pairs with rising addresses and no pair equal to
what an unlisted address reads as (`Memory.wf`). The unit is the word, the smallest thing an
address names (20_memory.md R33; log 1). -/
abbrev Memory := List (Nat × Word)

/-- The eight fault kinds (60_exceptions.md R96). -/
inductive FaultKind where
  /-- decode: a negative word, or an opcode code that maps to no opcode -/
  | unknownOpcode
  /-- decode: a mode digit that is not 0, 1 or 2, or digits above slot 3 -/
  | unknownParameterMode
  /-- an address `>= MEM_LIMIT`: fetch, operand fetch, read or write -/
  | memoryBounds
  /-- a negative address: a parameter, or a taken jump's target -/
  | invalidAddressConversion
  /-- a write parameter in Immediate mode -/
  | invalidWriteTarget
  /-- an Input held until `TIMEOUT` -/
  | inputTimeout
  /-- an Output held until `TIMEOUT` -/
  | outputTimeout
  /-- an exact result that is not a word, with `OVERFLOW_MODE = Fault` -/
  | arithmeticOverflow
  deriving DecidableEq, Repr

/-- The lifecycle phase (R16). -/
inductive Phase where
  | running
  | halted
  | faulted (k : FaultKind)
  deriving DecidableEq, Repr

/-- The hold in progress, which is also whether the timeout timer runs (R106) and what
`IN_WAIT` and `OUT_WAIT` show (R17). An Output that holds offers its word (42_io.md R79).
Log 6. -/
inductive Wait where
  | idle
  | input
  | output (v : Word)
  deriving DecidableEq, Repr

/-- One transaction from the engine's side at its ports (R24): a word taken at `IN` (R78), a
word delivered at `OUT` (R79), the end of the output stream (R95). -/
inductive PortEvent where
  | taken (v : Word)
  | delivered (v : Word)
  | endOfStream
  deriving DecidableEq, Repr

/-- The machine. The first five fields are the architectural state, all of it (R10); `wait` and
`ports` are the ports' state (R113; logs 6 and 7); `host` and `freeDraws` are the model's own
and stand for the environment of R61 (log 4). -/
structure State where
  /-- the word store (R20) -/
  mem : Memory
  /-- the allocated length (R21) -/
  len : Nat
  /-- the instruction pointer (R13) -/
  ip : Nat
  /-- the relative base (R15) -/
  rb : Word
  /-- the lifecycle phase (R16) -/
  phase : Phase
  /-- the hold in progress and the timeout timer (R17, R106) -/
  wait : Wait
  /-- the port transactions since `LOAD`, oldest first (R24, R39) -/
  ports : List PortEvent
  /-- the environment's next draws, one for each Input or Output attempt (R61) -/
  host : List HostDraw
  /-- how many draws were taken after `host` ran out -/
  freeDraws : Nat
  deriving DecidableEq, Repr

/-- No step of this machine ends in a fault of the interface, so this type has no constructor: a
fault of the engine is an entry the spec describes (60_exceptions.md R101), and the model takes
it as a next state in phase Faulted (log 3). Nothing raises it; safe. -/
inductive Fault : Type
  deriving DecidableEq, Repr

/-- Why `exec` has no meaning for an instruction. -/
inductive Refusal where
  /-- raised by an arm of `exec` that has no meaning yet; none is left. Safe: the model stops. -/
  | notModelled (mnemonic : String)
  deriving DecidableEq, Repr

/-- The state after `LOAD` of the empty program, which is legal (R111, R112, R113): memory lists
nothing, `len`, `ip` and `rb` are 0, the phase is Running, no hold is in progress and nothing has
passed at the ports. The host's draws are not part of `LOAD`; that list is empty here (log 4). -/
def State.reset : State where
  mem := []
  len := 0
  ip := 0
  rb := 0
  phase := .running
  wait := .idle
  ports := []
  host := []
  freeDraws := 0

end Sys2Proof.Machine
end

