-- ==== Sys2Proof/Machine/Memory.lean ====
section
/-! DEFINITION. The sparse word store: what an unlisted address reads as, the canonical form, and
the three operations under 20_memory.md R28, R29 and R31. -/

namespace Sys2Proof.Machine

open Sys2Proof

/-- What an address no pair lists reads as: 0, the spec's reset contents past the program and
what a read past `len` returns (R20, R28). -/
def Memory.unlisted : Word := 0

/-- The canonical form: addresses strictly rising, no pair that an unlisted address would read
the same as. -/
def Memory.wf : Memory → Bool
  | [] => true
  | (a, v) :: rest => v != Memory.unlisted && rest.all (fun c => a < c.1) && Memory.wf rest

/-- `mem[a]`. -/
def Memory.read : Memory → Nat → Word
  | [], _ => Memory.unlisted
  | (b, v) :: rest, a => if a = b then v else Memory.read rest a

/-- `mem[a] <- v`, in canonical form: writing what an unlisted address reads as lists nothing. -/
def Memory.write : Memory → Nat → Word → Memory
  | [], a, v => if v = Memory.unlisted then [] else [(a, v)]
  | (b, w) :: rest, a, v =>
    if a < b then
      (if v = Memory.unlisted then (b, w) :: rest else (a, v) :: (b, w) :: rest)
    else if a = b then
      (if v = Memory.unlisted then rest else (a, v) :: rest)
    else (b, w) :: Memory.write rest a v

/-- `mem[j] <- 0` for each `j` in `[lo, hi]` (R29). -/
def Memory.zeroFill (m : Memory) (lo hi : Nat) : Memory :=
  m.filter fun c => !(decide (lo ≤ c.1) && decide (c.1 ≤ hi))

/-- The store that holds the words of a list from address `a` on and 0 elsewhere (R111). -/
def Memory.ofWords : Nat → List Word → Memory
  | _, [] => []
  | a, w :: ws =>
    if w = Memory.unlisted then Memory.ofWords (a + 1) ws
    else (a, w) :: Memory.ofWords (a + 1) ws

end Sys2Proof.Machine
end

