-- ==== Sys2Proof/Machine/Ops.lean ====
section
/-! DEFINITION. The operations every instruction is made of: the memory controller's primitives
(20_memory.md R27 to R31), fault entry (60_exceptions.md R101), the updates of `ip` (40 R71, 43
R89), Halt's update (45 R95), the hold and the draw of the environment (42_io.md R82). -/

namespace Sys2Proof.Machine

open Sys2Proof

/-- `Addr(x)` (R27): the bounds check every memory access passes. -/
def addr (x : Int) : Except FaultKind Nat :=
  if x < 0 then .error .invalidAddressConversion
  else if (Config.memLimit : Int) ≤ x then .error .memoryBounds
  else .ok x.toNat

/-- `MemRead(a, 1)` (R28). -/
def memRead (a : Nat) (s : State) : Word :=
  if a < s.len then Memory.read s.mem a else 0

/-- `MemSlot(a)` (R29): zero-fills up to the written address and grows `len`. -/
def memSlot (a : Nat) (s : State) : State :=
  if s.len ≤ a then { s with mem := Memory.zeroFill s.mem s.len a, len := a + 1 } else s

/-- `MemWrite(a, 1, v)` (R31), at an address `MemSlot` has prepared. -/
def memWrite (a : Nat) (v : Word) (s : State) : State :=
  { s with mem := Memory.write s.mem a v }

/-- TAKING A FAULT (R72, R101): the phase becomes Faulted(k) and the timer is cleared (R106).
`ip` stays at the faulting instruction; nothing else is saved and control goes nowhere. There is
no return from it (R102): only `LOAD` leaves Faulted. -/
def takeFault (k : FaultKind) (s : State) : State :=
  { s with phase := .faulted k, wait := .idle }

/-- The default advance `ip <- ip + n` of a completed step (R71), whose hold, if any, is over
(R106). -/
def advance (n : Nat) (s : State) : State :=
  { s with ip := s.ip + n, wait := .idle }

/-- A taken jump, `ip <- t` (R89). -/
def jumpTo (t : Nat) (s : State) : State :=
  { s with ip := t, wait := .idle }

/-- `rb <- r` (R94). -/
def setBase (r : Word) (s : State) : State := { s with rb := r }

/-- A transaction at a port (R24), after those before it. -/
def record (e : PortEvent) (s : State) : State := { s with ports := s.ports ++ [e] }

/-- `phase <- Halted` and `OUT_EOS` (R95). `ip` is left alone. -/
def haltEngine (s : State) : State :=
  record .endOfStream { s with phase := .halted, wait := .idle }

/-- The step holds (R82): nothing changes but the port's condition. -/
def hold (w : Wait) (s : State) : State := { s with wait := w }

/-- What the host does at this attempt (R61): its next draw, or the free value (log 4). -/
def hostDraw (s : State) : HostDraw :=
  match s.host with
  | [] => Config.freeDraw s.freeDraws
  | d :: _ => d

/-- The draw is taken. -/
def takeDraw (s : State) : State :=
  match s.host with
  | [] => { s with freeDraws := s.freeDraws + 1 }
  | _ :: ds => { s with host := ds }

/-- The fault a decoding error raises (30_encoding.md R55; words that end inside an instruction
end at `MEM_LIMIT`, 40 R64). -/
def decodeFault : DecodeError → FaultKind
  | .negativeWord => .unknownOpcode
  | .unknownCode => .unknownOpcode
  | .unknownMode _ => .unknownParameterMode
  | .excessDigits => .unknownParameterMode
  | .truncated => .memoryBounds

end Sys2Proof.Machine
end

