-- ==== Sys2Proof/Machine/Operands.lean ====
section
/-! DEFINITION. Parameter resolution: the addressing modes (40_execution_cycle.md R65 to R67). -/

namespace Sys2Proof.Machine

open Sys2Proof

/-- The exact address a parameter names: none for Immediate (30_encoding.md R54; the sum of
Relative is exact, 20_memory.md R27). -/
def paramAddress (m : Mode) (raw rb : Word) : Option Int :=
  match m with
  | .position => some raw.toInt
  | .immediate => none
  | .relative => some (raw.toInt + rb.toInt)

/-- `ReadParam(mode, raw)` (R65). -/
def readParam (m : Mode) (raw : Word) (s : State) : Except FaultKind Word :=
  match paramAddress m raw s.rb with
  | none => .ok raw
  | some x =>
    match addr x with
    | .error k => .error k
    | .ok a => .ok (memRead a s)

/-- The address `WriteParam(mode, raw)` yields (R66). -/
def writeTarget (m : Mode) (raw : Word) (s : State) : Except FaultKind Nat :=
  match paramAddress m raw s.rb with
  | none => .error .invalidWriteTarget
  | some x => addr x

/-- `WriteParam(mode, raw)` (R66): the address, and the state after its `MemSlot`. -/
def writeParam (m : Mode) (raw : Word) (s : State) : Except FaultKind (Nat × State) :=
  match writeTarget m raw s with
  | .error k => .error k
  | .ok a => .ok (a, memSlot a s)

/-- Two read parameters in slot order (R67): the shape of the jumps (30_encoding.md R48). -/
def resolveRR (m : Modes) (p0 p1 : Word) (s : State) : Except FaultKind (Word × Word) :=
  match readParam m.m0 p0 s with
  | .error k => .error k
  | .ok a =>
    match readParam m.m1 p1 s with
    | .error k => .error k
    | .ok b => .ok (a, b)

/-- What resolution of the shape read, read, write yields. -/
structure Resolved where
  a : Word
  b : Word
  d : Nat
  /-- the state after the write parameter's `MemSlot` -/
  after : State
  deriving DecidableEq, Repr

/-- Read, read, write in slot order (R67): the shape of Add, Multiply, LessThan and Equals. -/
def resolveRRW (m : Modes) (p0 p1 p2 : Word) (s : State) : Except FaultKind Resolved :=
  match resolveRR m p0 p1 s with
  | .error k => .error k
  | .ok (a, b) =>
    match writeParam m.m2 p2 s with
    | .error k => .error k
    | .ok (d, t) => .ok ⟨a, b, d, t⟩

end Sys2Proof.Machine
end

