-- ==== Sys2Proof/Machine/Flags.lean ====
section
/-! DEFINITION. The engine has no flags and no condition codes (10_state.md R14): what other
machines keep in flags is here a result or a test. This file holds the range check of a result
(40_execution_cycle.md R69), the comparisons' 0 or 1 (44_compare.md R91), and the truth of a word
(43_jumps.md R88). -/

namespace Sys2Proof.Machine

open Sys2Proof

/-- Whether an exact integer is a word (R7, R69). -/
def isWord (r : Int) : Bool := decide (Config.wmin ≤ r) && decide (r ≤ Config.wmax)

/-- `wrap(r) = ((r - WMIN) mod 2^WORD_BITS) + WMIN` (R69). -/
def wrap (r : Int) : Int :=
  (r - Config.wmin) % ((2 ^ Config.wordBits : Nat) : Int) + Config.wmin

/-- The word to store for an exact result (R69), under either `OVERFLOW_MODE`. -/
def narrow (mode : OverflowMode) (r : Int) : Except FaultKind Word :=
  if isWord r then .ok (Word.ofInteger r)
  else
    match mode with
    | .fault => .error .arithmeticOverflow
    | .wrap => .ok (Word.ofInteger (wrap r))

/-- Add's result (41_arithmetic.md R76). -/
def sumResult (mode : OverflowMode) (a b : Word) : Except FaultKind Word :=
  narrow mode (a.toInt + b.toInt)

/-- Multiply's result (R77). -/
def productResult (mode : OverflowMode) (a b : Word) : Except FaultKind Word :=
  narrow mode (a.toInt * b.toInt)

/-- LessThan's result: signed comparison (R91, R92). -/
def lessResult (a b : Word) : Word := if a.toInt < b.toInt then 1 else 0

/-- Equals' result (R91, R93). -/
def equalResult (a b : Word) : Word := if a = b then 1 else 0

/-- The truth of a word: it is not 0 (R88). -/
def truth (t : Word) : Bool := t != 0

end Sys2Proof.Machine
end

