-- ==== Sys2Proof/Machine/Arithmetic.lean ====
section
/-! DEFINITION. The shared shape of the instructions with two reads and a write, and Add and
Multiply (41_arithmetic.md). -/

namespace Sys2Proof.Machine

open Sys2Proof

/-- Resolution, the handler's result `f`, one store and the advance by 4 (R60, R70, R71). A fault
of resolution leaves the state as it was; a fault of the handler leaves the `len` growth of
resolution (R72). -/
def threeOperand (f : Word → Word → Except FaultKind Word) (m : Modes) (p0 p1 p2 : Word)
    (s : State) : State :=
  match resolveRRW m p0 p1 p2 s with
  | .error k => takeFault k s
  | .ok o =>
    match f o.a o.b with
    | .error k => takeFault k o.after
    | .ok r => advance 4 (memWrite o.d r o.after)

/-- ADD (R76). -/
def execAdd (m : Modes) (p0 p1 p2 : Word) (s : State) : Host.Outcome State Fault Refusal :=
  .next (threeOperand (sumResult Config.overflowMode) m p0 p1 p2 s)

/-- MUL (R77). -/
def execMul (m : Modes) (p0 p1 p2 : Word) (s : State) : Host.Outcome State Fault Refusal :=
  .next (threeOperand (productResult Config.overflowMode) m p0 p1 p2 s)

end Sys2Proof.Machine
end

