-- ==== Sys2Proof/Machine/BaseHalt.lean ====
section
/-! DEFINITION. RelativeBaseOffset and Halt (45_base_and_halt.md). -/

namespace Sys2Proof.Machine

open Sys2Proof

/-- RelativeBaseOffset under either `OVERFLOW_MODE` (R94): the operand is read with the old
base. -/
def offsetBase (mode : OverflowMode) (m : Modes) (p0 : Word) (s : State) : State :=
  match readParam m.m0 p0 s with
  | .error k => takeFault k s
  | .ok v =>
    match sumResult mode s.rb v with
    | .error k => takeFault k s
    | .ok r => advance 2 (setBase r s)

/-- ARB (R94). -/
def execArb (m : Modes) (p0 : Word) (s : State) : Host.Outcome State Fault Refusal :=
  .next (offsetBase Config.overflowMode m p0 s)

/-- HALT (R95): every mode digit is unused. -/
def execHalt (_m : Modes) (s : State) : Host.Outcome State Fault Refusal :=
  .next (haltEngine s)

end Sys2Proof.Machine
end

