-- ==== Sys2Proof/Machine/Compare.lean ====
section
/-! DEFINITION. LessThan and Equals (44_compare.md). -/

namespace Sys2Proof.Machine

open Sys2Proof

/-- LT (R92). -/
def execLt (m : Modes) (p0 p1 p2 : Word) (s : State) : Host.Outcome State Fault Refusal :=
  .next (threeOperand (fun a b => .ok (lessResult a b)) m p0 p1 p2 s)

/-- EQ (R93). -/
def execEq (m : Modes) (p0 p1 p2 : Word) (s : State) : Host.Outcome State Fault Refusal :=
  .next (threeOperand (fun a b => .ok (equalResult a b)) m p0 p1 p2 s)

end Sys2Proof.Machine
end

