-- ==== Sys2Proof/Machine/InputOutput.lean ====
section
/-! DEFINITION. Input and Output (42_io.md): the two blocking points. Each attempt takes one draw
of the environment (R61); a ready partner wins over the timeout (R83); without either the step
holds and is attempted again (R82). -/

namespace Sys2Proof.Machine

open Sys2Proof

/-- The Input handler after resolution (R84): `d` is the address `MemSlot` prepared and `t` the
state after it. -/
def inputWait (d : Nat) (t : State) : State :=
  match (hostDraw t).offered with
  | some v => advance 2 (memWrite d v (record (.taken v) (takeDraw t)))
  | none =>
    if (hostDraw t).timedOut then takeFault .inputTimeout (takeDraw t)
    else hold .input (takeDraw t)

/-- IN (R84). A fault of resolution comes before the wait and takes no draw. -/
def execInput (m : Modes) (p0 : Word) (s : State) : Host.Outcome State Fault Refusal :=
  .next (match writeParam m.m0 p0 s with
    | .error k => takeFault k s
    | .ok (d, t) => inputWait d t)

/-- The Output handler after resolution (R85). -/
def outputWait (v : Word) (s : State) : State :=
  if (hostDraw s).outReady then advance 2 (record (.delivered v) (takeDraw s))
  else if (hostDraw s).timedOut then takeFault .outputTimeout (takeDraw s)
  else hold (.output v) (takeDraw s)

/-- OUT (R85). -/
def execOutput (m : Modes) (p0 : Word) (s : State) : Host.Outcome State Fault Refusal :=
  .next (match readParam m.m0 p0 s with
    | .error k => takeFault k s
    | .ok v => outputWait v s)

end Sys2Proof.Machine
end

