-- ==== Sys2Proof/Machine/Jumps.lean ====
section
/-! DEFINITION. JumpIfTrue and JumpIfFalse (43_jumps.md). -/

namespace Sys2Proof.Machine

open Sys2Proof

/-- Resolution, the test, and a taken jump's check of its target: a negative target faults, any
other is accepted, `MEM_LIMIT` and above too (R87). A jump not taken advances by 3 (R71). -/
def conditionalJump (taken : Word → Bool) (m : Modes) (p0 p1 : Word) (s : State) : State :=
  match resolveRR m p0 p1 s with
  | .error k => takeFault k s
  | .ok (t, g) =>
    if taken t then
      (if g.toInt < 0 then takeFault .invalidAddressConversion s else jumpTo g.toInt.toNat s)
    else advance 3 s

/-- JT (R89). -/
def execJt (m : Modes) (p0 p1 : Word) (s : State) : Host.Outcome State Fault Refusal :=
  .next (conditionalJump (fun t => truth t) m p0 p1 s)

/-- JF (R90). -/
def execJf (m : Modes) (p0 p1 : Word) (s : State) : Host.Outcome State Fault Refusal :=
  .next (conditionalJump (fun t => !truth t) m p0 p1 s)

end Sys2Proof.Machine
end

