-- ==== Sys2Proof/Machine/Dispatch.lean ====
section
/-! DEFINITION. Dispatch over the closed set of ten opcodes (40_execution_cycle.md R68). -/

namespace Sys2Proof.Machine

open Sys2Proof

def exec (i : Instr) (s : State) : Host.Outcome State Fault Refusal :=
  match i with
  | .add m p0 p1 p2 => Sys2Proof.Machine.execAdd m p0 p1 p2 s
  | .mul m p0 p1 p2 => Sys2Proof.Machine.execMul m p0 p1 p2 s
  | .input m p0 => Sys2Proof.Machine.execInput m p0 s
  | .output m p0 => Sys2Proof.Machine.execOutput m p0 s
  | .jt m p0 p1 => Sys2Proof.Machine.execJt m p0 p1 s
  | .jf m p0 p1 => Sys2Proof.Machine.execJf m p0 p1 s
  | .lt m p0 p1 p2 => Sys2Proof.Machine.execLt m p0 p1 p2 s
  | .eq m p0 p1 p2 => Sys2Proof.Machine.execEq m p0 p1 p2 s
  | .arb m p0 => Sys2Proof.Machine.execArb m p0 s
  | .halt m => Sys2Proof.Machine.execHalt m s

end Sys2Proof.Machine
end

