-- ==== Sys2Proof/Machine/Fetch.lean ====
section
/-! DEFINITION. Instruction fetch, decode and operand fetch (40_execution_cycle.md R60, R63,
R64), the step's frame around them (R62), and the placing of words where the next step fetches. -/

namespace Sys2Proof.Machine

open Sys2Proof

/-- One fetched word, through the same controller as a data read (R63). -/
def fetchWord (a : Nat) (s : State) : Except FaultKind Word :=
  match addr a with
  | .error k => .error k
  | .ok a => .ok (memRead a s)

/-- `n` raw parameter words from address `a` on, in order (R64). -/
def fetchRaws (s : State) : Nat → Nat → Except FaultKind (List Word)
  | _, 0 => .ok []
  | a, n + 1 =>
    match fetchWord a s with
    | .error k => .error k
    | .ok w =>
      match fetchRaws s (a + 1) n with
      | .error k => .error k
      | .ok ws => .ok (w :: ws)

/-- The instruction at `ip`: the instruction word, its decoding, then its raw parameter words
(R60). -/
def fetchInstr (s : State) : Except FaultKind Instr :=
  match fetchWord s.ip s with
  | .error k => .error k
  | .ok w =>
    match decodeHead w with
    | .error e => .error (decodeFault e)
    | .ok (op, m) =>
      match fetchRaws s (s.ip + 1) op.arity with
      | .error k => .error k
      | .ok ws => .ok (build op m ws)

/-- One step around the execution of an instruction (R60, R62): nothing unless the phase is
Running; a fault of fetch, decode or operand fetch is taken in the state the step found. -/
def cycle (run : Instr → State → Host.Outcome State Fault Refusal) (s : State) :
    Host.Outcome State Fault Refusal :=
  match s.phase with
  | .halted => .next s
  | .faulted _ => .next s
  | .running =>
    match fetchInstr s with
    | .error k => .next (takeFault k s)
    | .ok i => run i s

/-- The words the engine can fetch at `ip`, at most the longest instruction's four, up to
`MEM_LIMIT`. -/
def fetchWindow (s : State) : List Word :=
  (List.range (min 4 (Config.memLimit - s.ip))).map fun k => memRead (s.ip + k) s

/-- Words stored from address `a` on; words beyond `MEM_LIMIT` are dropped. -/
def placeWords : List Word → Nat → State → State
  | [], _, s => s
  | w :: ws, a, s =>
    placeWords ws (a + 1) (if a < Config.memLimit then memWrite a w (memSlot a s) else s)

/-- The words stored at `ip`, in a state that will run them. -/
def placeAtPointer (ws : List Word) (s : State) : State :=
  placeWords ws s.ip { s with phase := .running }

end Sys2Proof.Machine
end

