-- ==== Sys2Proof/Machine/Step.lean ====
section
/-! DEFINITION. One step, the spec's `STEP` (40_execution_cycle.md R60). -/

namespace Sys2Proof.Machine

open Sys2Proof

/-- `Step(s, env)` with the environment's draws held in the state (R60, R61). -/
def step (s : State) : Host.Outcome State Fault Refusal := cycle exec s

/-- The words of a numbered instruction stored where `step` fetches next (log 9, log 13). -/
def State.withFetchWord (s : State) (nbits w : Nat) : State := placeAtPointer (tableWords nbits w) s

end Sys2Proof.Machine
end

