-- ==== Sys2Proof/Machine/Interface.lean ====
section
/-! DEFINITION. The host's side of the block (10_state.md R24 to R26): the readouts, `LOAD`
(70_reset_and_hazards.md R111, R112), one step under a given draw, and `RUN` under fuel
(40_execution_cycle.md R73; log 11). -/

namespace Sys2Proof.Machine

open Sys2Proof

/-- The fault code of `STATUS.FAULT` (60_exceptions.md R97). -/
def FaultKind.code : FaultKind → Nat
  | .unknownOpcode => 1
  | .unknownParameterMode => 2
  | .memoryBounds => 3
  | .invalidAddressConversion => 4
  | .invalidWriteTarget => 5
  | .inputTimeout => 6
  | .outputTimeout => 7
  | .arithmeticOverflow => 8

/-- `STATUS.PHASE` (R17). -/
def Phase.code : Phase → Nat
  | .running => 0
  | .halted => 1
  | .faulted _ => 2

/-- `STATUS.FAULT` (R17). -/
def Phase.faultCode : Phase → Nat
  | .running => 0
  | .halted => 0
  | .faulted k => k.code

/-- `STATUS.IN_WAIT` (R17). -/
def Wait.inBit : Wait → Nat
  | .idle => 0
  | .input => 1
  | .output _ => 0

/-- `STATUS.OUT_WAIT` (R17). -/
def Wait.outBit : Wait → Nat
  | .idle => 0
  | .input => 0
  | .output _ => 1

/-- `STATUS` (R17): PHASE in bits 1:0, FAULT in bits 5:2, IN_WAIT in bit 6, OUT_WAIT in bit 7, 0
above (log 8). -/
def status (s : State) : Word :=
  BitVec.ofNat 64
    (s.phase.code + 4 * s.phase.faultCode + 64 * s.wait.inBit + 128 * s.wait.outBit)

/-- The `IP` readout (R18). -/
def readIp (s : State) : Nat := s.ip

/-- The `RB` readout (R18). -/
def readRb (s : State) : Word := s.rb

/-- The `LEN` readout (R25). -/
def readLen (s : State) : Nat := s.len

/-- `MEMREAD(a)`, defined for `a < len` (R25; log 14). -/
def readMem (a : Nat) (s : State) : Option Word :=
  if a < s.len then some (Memory.read s.mem a) else none

/-- The final memory contents, `mem[0 .. len)` (R25). -/
def finalMemory (s : State) : List Word := (List.range s.len).map fun a => Memory.read s.mem a

/-- The word an event delivered at `OUT`, if it is a delivery. -/
def PortEvent.output : PortEvent → Option Word
  | .taken _ => none
  | .delivered v => some v
  | .endOfStream => none

/-- The word an event took at `IN`, if it is an input. -/
def PortEvent.input : PortEvent → Option Word
  | .taken v => some v
  | .delivered _ => none
  | .endOfStream => none

/-- The words delivered at `OUT` since `LOAD`, in program order (R39). -/
def outputs (s : State) : List Word := s.ports.filterMap PortEvent.output

/-- The words taken at `IN` since `LOAD`, in program order (R39). -/
def inputs (s : State) : List Word := s.ports.filterMap PortEvent.input

/-- Whether `OUT_EOS` has been signalled (R95). -/
def eosSignalled (s : State) : Bool := s.ports.contains .endOfStream

/-- What `LOAD` requires of a program (R112). -/
def loadable (program : List Int) : Bool :=
  decide (program.length ≤ Config.memLimit) && program.all isWord

/-- `LOAD(program)` (R111), or none where the block refuses it (R112). It may come in any phase
and discards the whole previous state; the host's own draws are no state of the block and stay
(log 4). -/
def load (program : List Int) (s : State) : Option State :=
  if loadable program then
    some
      { mem := Memory.ofWords 0 (program.map Word.ofInteger)
        len := program.length
        ip := 0
        rb := 0
        phase := .running
        wait := .idle
        ports := []
        host := s.host
        freeDraws := s.freeDraws }
  else none

/-- A `LOAD` transaction: a refused program leaves the previous state (R112). -/
def loadRequest (program : List Int) (s : State) : State :=
  match load program s with
  | none => s
  | some t => t

/-- `Step(s, env)` with `env` given (R60, R61): the list of draws the state holds is not touched. -/
def stepWith (env : HostDraw) (s : State) : Host.Outcome State Fault Refusal :=
  match step { s with host := [env] } with
  | .next t => .next { t with host := s.host }
  | .fault r => .fault r
  | .refused r => .refused r

/-- `RUN` (R73) for at most `fuel` attempts of a step. It ends by itself where the phase is not
Running. -/
def run : Nat → State → Host.Outcome State Fault Refusal
  | 0, s => .next s
  | fuel + 1, s =>
    match s.phase with
    | .halted => .next s
    | .faulted _ => .next s
    | .running =>
      match step s with
      | .next t => run fuel t
      | .fault r => .fault r
      | .refused r => .refused r

end Sys2Proof.Machine
end

