-- ==== Sys2Proof/Machine/Assembly.lean ====
section
/-! DEFINITION. The assembler's notation and pseudo-instructions (30_encoding.md R57, R58) over
already parsed lines: a label is a number here, and text parsing is out of scope (R4; log 15).
The words are the authority; nothing of the machine depends on this file. -/

namespace Sys2Proof.Machine

open Sys2Proof

/-- A label, named by a number. -/
abbrev Label := Nat

/-- A decimal integer or a label (R57). -/
inductive AsmNumber where
  | literal (n : Int)
  | label (l : Label)
  deriving DecidableEq, Repr

/-- The operand forms (R57): `[n]`, `n`, `[rb+n]` and `[rb-n]`. -/
inductive AsmOperand where
  | position (n : AsmNumber)
  | immediate (n : AsmNumber)
  | relative (n : AsmNumber)
  | relativeMinus (n : AsmNumber)
  deriving DecidableEq, Repr

/-- One line of source: an instruction, a label for the next word, or literal words (R57).
DESIGN CHOICE (log 15): R57 says only that `.word` emits literal words; here its values may be
labels too, as an operand's `n` may, and a label's value is its address. -/
inductive AsmLine where
  | instr (op : Opcode) (operands : List AsmOperand)
  | labelled (l : Label)
  | words (vs : List AsmNumber)
  deriving DecidableEq, Repr

/-- The mode digit of an operand form (R57). -/
def AsmOperand.mode : AsmOperand → Mode
  | .position _ => .position
  | .immediate _ => .immediate
  | .relative _ => .relative
  | .relativeMinus _ => .relative

/-- The words a line takes. -/
def AsmLine.size : AsmLine → Nat
  | .instr op _ => 1 + op.arity
  | .labelled _ => 0
  | .words vs => vs.length

/-- The labels of a source, each with the address of the next word (R57). -/
def asmLabels : Nat → List AsmLine → List (Label × Nat)
  | _, [] => []
  | a, .labelled l :: rest => (l, a) :: asmLabels a rest
  | a, .instr op os :: rest => asmLabels (a + (AsmLine.instr op os).size) rest
  | a, .words vs :: rest => asmLabels (a + vs.length) rest

/-- The integer a number stands for: a literal's own, a bound label's address (R57); none for an
unbound label (log 15). -/
def AsmNumber.integer (labels : List (Label × Nat)) : AsmNumber → Option Int
  | .literal n => some n
  | .label l => (labels.lookup l).map fun a => (a : Int)

/-- The integer an operand form is encoded by: `n` itself, or `-n` for `[rb-n]` (R57). -/
def AsmOperand.integer (labels : List (Label × Nat)) : AsmOperand → Option Int
  | .position n => n.integer labels
  | .immediate n => n.integer labels
  | .relative n => n.integer labels
  | .relativeMinus n => (n.integer labels).map fun v => -v

/-- The words of several integers: none if one is missing or is no word (log 15). -/
def asmWords : List (Option Int) → Option (List Word)
  | [] => some []
  | none :: _ => none
  | some v :: vs =>
    if isWord v then (asmWords vs).map fun ws => Word.ofInteger v :: ws else none

/-- The mode tags of the operands; the unused slots' are Position (R57). -/
def asmModes (os : List AsmOperand) : Modes :=
  let mode (k : Nat) : Mode := (os.map AsmOperand.mode).getD k .position
  ⟨mode 0, mode 1, mode 2, mode 3⟩

/-- The instruction of a mnemonic and its operands: exactly `N` of them, and the write operand
not `n` (R57). -/
def asmInstr (labels : List (Label × Nat)) (op : Opcode) (os : List AsmOperand) : Option Instr :=
  if os.length = op.arity then
    match asmWords (os.map fun o => o.integer labels) with
    | none => none
    | some ws =>
      if (build op (asmModes os) ws).wellFormed then some (build op (asmModes os) ws) else none
  else none

/-- The words of the lines (R57). -/
def asmEmit (labels : List (Label × Nat)) : List AsmLine → Option (List Word)
  | [] => some []
  | .labelled _ :: rest => asmEmit labels rest
  | .words vs :: rest =>
    match asmWords (vs.map fun n => n.integer labels), asmEmit labels rest with
    | some ws, some more => some (ws ++ more)
    | _, _ => none
  | .instr op os :: rest =>
    match asmInstr labels op os, asmEmit labels rest with
    | some i, some more => some (encode i ++ more)
    | _, _ => none

/-- The program of a source (R57), or none where the assembler refuses it. -/
def assemble (lines : List AsmLine) : Option (List Word) := asmEmit (asmLabels 0 lines) lines

/-- `MOV s, [d]` (R58). -/
def asmMov (s d : AsmOperand) : AsmLine := .instr .add [s, .immediate (.literal 0), d]

/-- `CLR [d]` (R58). -/
def asmClr (d : AsmOperand) : AsmLine :=
  .instr .add [.immediate (.literal 0), .immediate (.literal 0), d]

/-- `NEG s, [d]` (R58). DESIGN CHOICE (log 15): R58 names only `MOV`, `CLR` and `NOT` as writing
any write-operand form; here `NEG` does too, a Relative `d` included, as the `MUL` it expands to
does. -/
def asmNeg (s d : AsmOperand) : AsmLine := .instr .mul [s, .immediate (.literal (-1)), d]

/-- `JMP t` (R58). -/
def asmJmp (t : AsmOperand) : AsmLine := .instr .jt [.immediate (.literal 1), t]

/-- `NOT s, [d]` (R58). -/
def asmNot (s d : AsmOperand) : AsmLine := .instr .eq [s, .immediate (.literal 0), d]

end Sys2Proof.Machine
end

