-- ==== Sys2Proof/Safety.lean ====
section
/-! DEFINITION. What claims about runs are stated in: the state invariant of 10_state.md R13, R17,
R21 and 45_base_and_halt.md R95, the meaning of a hold, and what a program can observe. -/

namespace Sys2Proof.Machine

open Sys2Proof

/-- The invariant of the engine's state. -/
structure State.Inv (s : State) : Prop where
  /-- the store is in its canonical form -/
  memCanonical : Memory.wf s.mem = true
  /-- `mem[a] = 0` for every `a >= len` (R21): nothing is listed there -/
  zeroPastLen : ∀ c ∈ s.mem, c.1 < s.len
  /-- `len <= MEM_LIMIT` (R21) -/
  lenBound : s.len ≤ Config.memLimit
  /-- `ip <= WMAX` (R13) -/
  ipRange : (s.ip : Int) ≤ Config.wmax
  /-- only a running engine holds (R16, R17) -/
  waitRunning : s.wait ≠ .idle → s.phase = .running
  /-- before Halt the output stream has not ended (R95) -/
  eosNotBefore : s.phase ≠ .halted → PortEvent.endOfStream ∉ s.ports
  /-- at Halt it has ended once, and nothing came after (R95) -/
  eosOnceLast : s.phase = .halted →
    ∃ before, s.ports = before ++ [.endOfStream] ∧ PortEvent.endOfStream ∉ before

/-- A hold is the hold of the instruction at `ip`: an Input whose write parameter has been
resolved, or an Output that offers the value it reads (42_io.md R78, R79, R82). -/
structure State.HoldMatches (s : State) : Prop where
  input : s.wait = .input →
    ∃ m p d, fetchInstr s = .ok (.input m p) ∧ writeTarget m.m0 p s = .ok d ∧ d < s.len
  output : ∀ v, s.wait = .output v →
    ∃ m p, fetchInstr s = .ok (.output m p) ∧ readParam m.m0 p s = .ok v

/-- Two states no program can tell apart: every word and every other field agree; `len` and how
the store is written out may differ (R21, R25). -/
structure State.SameWords (s t : State) : Prop where
  words : ∀ a, memRead a s = memRead a t
  ip : s.ip = t.ip
  rb : s.rb = t.rb
  phase : s.phase = t.phase
  wait : s.wait = t.wait
  ports : s.ports = t.ports
  host : s.host = t.host
  freeDraws : s.freeDraws = t.freeDraws

/-- Memory is left alone: every word reads as before and `len` is the same. -/
def State.keepsMemory (s t : State) : Prop :=
  (∀ x, memRead x t = memRead x s) ∧ t.len = s.len

/-- One word is stored: at `d` the integer `r`, every other word as before, `len` grown to hold
`d` if it did not (R29, R31). -/
def State.stores (s t : State) (d : Nat) (r : Int) : Prop :=
  (memRead d t).toInt = r ∧ (∀ x, x ≠ d → memRead x t = memRead x s) ∧ t.len = max s.len (d + 1)

/-- Nothing passes at the ports and no draw of the environment is taken. -/
def State.keepsPorts (s t : State) : Prop :=
  t.ports = s.ports ∧ t.host = s.host ∧ t.freeDraws = s.freeDraws

/-- One draw of the environment is taken: it leaves the state's list, or, where that is empty, the
count of free draws rises. -/
def State.takesDraw (s t : State) : Prop :=
  t.host = s.host.tail ∧ t.freeDraws = if s.host = [] then s.freeDraws + 1 else s.freeDraws

/-- The address an instruction stores to in a state, if it has a write parameter and all its
parameters resolve (R66, R67). -/
def writeAddress (i : Instr) (s : State) : Option Nat :=
  let three (m : Modes) (p0 p1 p2 : Word) : Option Nat :=
    match resolveRRW m p0 p1 p2 s with
    | .error _ => none
    | .ok o => some o.d
  match i with
  | .add m p0 p1 p2 => three m p0 p1 p2
  | .mul m p0 p1 p2 => three m p0 p1 p2
  | .input m p0 =>
    match writeTarget m.m0 p0 s with
    | .error _ => none
    | .ok d => some d
  | .output _ _ => none
  | .jt _ _ _ => none
  | .jf _ _ _ => none
  | .lt m p0 p1 p2 => three m p0 p1 p2
  | .eq m p0 p1 p2 => three m p0 p1 p2
  | .arb _ _ => none
  | .halt _ => none

/-- `r` is the value a storing instruction stores: the exact sum or product (R76, R77), the outcome
of a comparison (R92, R93), the word offered (R84). -/
def State.storedValue (s : State) (i : Instr) (r : Int) : Prop :=
  let reads (m : Modes) (p0 p1 : Word) (f : Int → Int → Int) : Prop :=
    ∃ a b, readParam m.m0 p0 s = .ok a ∧ readParam m.m1 p1 s = .ok b ∧ r = f a.toInt b.toInt
  match i with
  | .add m p0 p1 _ => reads m p0 p1 (· + ·)
  | .mul m p0 p1 _ => reads m p0 p1 (· * ·)
  | .input _ _ => ∃ v, (hostDraw s).offered = some v ∧ r = v.toInt
  | .output _ _ => False
  | .jt _ _ _ => False
  | .jf _ _ _ => False
  | .lt m p0 p1 _ => reads m p0 p1 fun a b => if a < b then 1 else 0
  | .eq m p0 p1 _ => reads m p0 p1 fun a b => if a = b then 1 else 0
  | .arb _ _ => False
  | .halt _ => False

/-- `len` after the resolution of the instruction at `ip` (R29, R66). -/
def grownLen (s : State) : Nat :=
  match fetchInstr s with
  | .error _ => s.len
  | .ok i =>
    match writeAddress i s with
    | none => s.len
    | some d => max s.len (d + 1)

/-- The two blocking points (42_io.md). -/
def isPortInstr : Instr → Bool
  | .add _ _ _ _ => false
  | .mul _ _ _ _ => false
  | .input _ _ => true
  | .output _ _ => true
  | .jt _ _ _ => false
  | .jf _ _ _ => false
  | .lt _ _ _ _ => false
  | .eq _ _ _ _ => false
  | .arb _ _ => false
  | .halt _ => false

/-- A run is safe so far: the engine has not faulted. -/
def State.notFaulted (s : State) : Bool :=
  match s.phase with
  | .running => true
  | .halted => true
  | .faulted _ => false

end Sys2Proof.Machine
end

