-- ==== Sys2Proof/Certificates/Slice0/Obligations.lean ====
section
/-! DEFINITION. The statements made of this model, for the provers. Each docstring names the rule
of spec/ it formalises. Words of memory are read through `memRead`, never through the store's
list (10_state.md R25). -/

open Sys2Proof Sys2Proof.Machine

/-! ### Encoding (30_encoding.md) -/

/-- Encoding and then decoding gives the instruction back, with every mode digit, the unused ones
too, and every parameter word; what follows is left over (sections 1 to 3). -/
def Obligations.DecodeOfEncodeIsTheInstruction : Prop :=
  ∀ (i : Instr) (rest : List Word), decode (encode i ++ rest) = .ok (i, rest)

/-- Words that decode are exactly the encoding of what they decode to: no word has two readings
and no two spellings of a word exist (sections 1 to 3). -/
def Obligations.EncodeOfDecodeIsTheWords : Prop :=
  ∀ (ws : List Word) (i : Instr) (rest : List Word),
    decode ws = .ok (i, rest) → encode i ++ rest = ws

/-- Words of the spec's own examples decode to what the spec says they are (30_encoding.md R57
example, R53; 95_test_vectors.md). -/
def Obligations.SpecExampleWordsDecode : Prop :=
  decode [1, 9, 10, 3] =
      .ok (.add ⟨.position, .position, .position, .position⟩ 9 10 3, []) ∧
    decode [21202, 2, 7, -1] =
      .ok (.mul ⟨.relative, .immediate, .relative, .position⟩ 2 7 (-1), []) ∧
    decode [222299] = .ok (.halt ⟨.relative, .relative, .relative, .relative⟩, []) ∧
    decode [399] = .error (.unknownMode 0) ∧
    decode [-1] = .error .negativeWord

/-- Every legal instruction word is the weighted sum of its code and mode digits, and the mode of
slot `k` is digit `2 + k` (R45). -/
def Obligations.LegalWordIsSumOfItsFields : Prop :=
  ∀ (w : Word) (op : Opcode) (m : Modes), decodeHead w = .ok (op, m) →
    w.toInt = ((op.code + 100 * m.m0.digit + 1000 * m.m1.digit + 10000 * m.m2.digit +
      100000 * m.m3.digit : Nat) : Int) ∧
    op.code = w.toNat % 100 ∧
    (∀ k, k < Config.modeSlots → (m.slot k).digit = w.toNat / 10 ^ (2 + k) % 10) ∧
    w.toNat / 10 ^ 6 = 0

/-- A negative instruction word raises `UnknownOpcode`; no negative word decodes (R50). -/
def Obligations.NegativeWordIsUnknownOpcode : Prop :=
  ∀ s : State, s.phase = .running → s.ip < Config.memLimit → (memRead s.ip s).toInt < 0 →
    (∀ op m, decodeHead (memRead s.ip s) ≠ .ok (op, m)) ∧
    step s = .next (takeFault .unknownOpcode s)

/-- The decoder's checks and their order: the sign, the opcode code, the mode digits of the four
slots whatever the arity, the digits above; and what it answers where all pass (R51). -/
def Obligations.DecodeAnswersByItsChecks : Prop :=
  ∀ w : Word,
    let legalCode : Prop := ∃ op : Opcode, op.code = w.toNat % 100
    let legalModes : Prop := ∀ k, k < Config.modeSlots → w.toNat / 10 ^ (2 + k) % 10 ≤ 2
    (w.toInt < 0 → ∃ e, decodeHead w = .error e ∧ decodeFault e = .unknownOpcode) ∧
    (0 ≤ w.toInt → ¬ legalCode →
      ∃ e, decodeHead w = .error e ∧ decodeFault e = .unknownOpcode) ∧
    (0 ≤ w.toInt → legalCode → ¬ legalModes →
      ∃ e, decodeHead w = .error e ∧ decodeFault e = .unknownParameterMode) ∧
    (0 ≤ w.toInt → legalCode → legalModes → (10 : Int) ^ 6 ≤ w.toInt →
      ∃ e, decodeHead w = .error e ∧ decodeFault e = .unknownParameterMode) ∧
    (0 ≤ w.toInt → legalCode → legalModes → w.toInt < (10 : Int) ^ 6 →
      ∃ op m, decodeHead w = .ok (op, m) ∧ op.code = w.toNat % 100 ∧
        ∀ k, k < Config.modeSlots → (m.slot k).digit = w.toNat / 10 ^ (2 + k) % 10)

/-- The assembler's instruction (R57): its word is `OC + 100*m0 + 1000*m1 + 10000*m2` over the
operands' mode digits, with digit 0 in every unused slot, and the raw words that follow are the
operands' own numbers; it decodes to what was assembled. The assembler accepts exactly `N`
operands, with numbers that are words and no Immediate write operand (that an unbound label and a
number that is no word are refused is the model's choice, log 15). -/
def Obligations.AssembledInstructionIsCanonical : Prop :=
  ∀ (labels : List (Label × Nat)) (op : Opcode) (os : List AsmOperand),
    (∀ i : Instr, asmInstr labels op os = some i →
      i.opcode = op ∧ i.canonical = true ∧ i.raws.length = os.length ∧
      (∀ k o, os[k]? = some o → i.modes.slot k = o.mode ∧
        ∃ r, i.raws[k]? = some r ∧ o.integer labels = some r.toInt) ∧
      (∃ w, encode i = w :: i.raws ∧ w.toInt = ((op.code + 100 * i.modes.m0.digit +
        1000 * i.modes.m1.digit + 10000 * i.modes.m2.digit : Nat) : Int)) ∧
      decode (encode i) = .ok (i, [])) ∧
    ((∃ i, asmInstr labels op os = some i) ↔
      os.length = op.arity ∧
      (∀ o ∈ os, ∃ n, o.integer labels = some n ∧ Config.wmin ≤ n ∧ n ≤ Config.wmax) ∧
      ∀ (k : Nat) (o : AsmOperand), os[k]? = some o → op.shape[k]? = some Role.write →
        o.mode ≠ .immediate)

/-! ### Memory (20_memory.md) -/

/-- The address check: negative, then the exclusive limit, else the address itself, for every
exact integer (R27). -/
def Obligations.AddressCheckOfEveryInteger : Prop :=
  ∀ x : Int,
    (x < 0 → addr x = .error .invalidAddressConversion) ∧
    (0 ≤ x → 268435456 ≤ x → addr x = .error .memoryBounds) ∧
    (0 ≤ x → x < 268435456 → ∃ a : Nat, addr x = .ok a ∧ (a : Int) = x)

/-- `MemSlot` grows the store to hold the address and zero-fills up to and including it, touches
nothing below, and does nothing where the address is held already; its only visible effect is
`len` (R29). -/
def Obligations.MemSlotGrowsAndZeroFills : Prop :=
  ∀ (s : State) (a : Nat),
    (s.len ≤ a → (memSlot a s).len = a + 1 ∧
      (∀ j, s.len ≤ j → j ≤ a → Memory.read (memSlot a s).mem j = 0) ∧
      (∀ j, j < s.len → Memory.read (memSlot a s).mem j = Memory.read s.mem j)) ∧
    (a < s.len → memSlot a s = s) ∧
    (∀ x, memRead x (memSlot a s) = memRead x s) ∧
    memSlot a s = { s with mem := (memSlot a s).mem, len := (memSlot a s).len }

/-- `MemSlot` twice is `MemSlot` once, and no read's value depends on whether one came before it
(R30). -/
def Obligations.MemSlotIsIdempotentAndUnseen : Prop :=
  ∀ (s : State) (a x : Nat),
    memSlot a (memSlot a s) = memSlot a s ∧ memRead x (memSlot a s) = memRead x s

/-- The source's memory property: past `len` and below the limit a read gives 0, and a write then
succeeds, grows `len` to hold it, keeps the gap at zero and every other word; at or beyond the
limit read and write parameters both fault `MemoryBounds` (R32). -/
def Obligations.GrowOnWriteZeroOnRead : Prop :=
  (∀ (s : State) (a : Nat) (v : Word), s.Inv → s.len ≤ a → a < Config.memLimit →
    memRead a s = 0 ∧
    (memWrite a v (memSlot a s)).len = a + 1 ∧
    memRead a (memWrite a v (memSlot a s)) = v ∧
    (∀ j, s.len ≤ j → j < a → memRead j (memWrite a v (memSlot a s)) = 0) ∧
    (∀ j, j ≠ a → memRead j (memWrite a v (memSlot a s)) = memRead j s)) ∧
  (∀ (m : Mode) (raw : Word) (s : State) (x : Int), paramAddress m raw s.rb = some x →
    (Config.memLimit : Int) ≤ x →
      readParam m raw s = .error .memoryBounds ∧ writeParam m raw s = .error .memoryBounds)

/-- A store is last-writer-wins and nothing else of it is recorded: stores to different words
commute, a second store to a word hides the first, and storing the word that is there changes
nothing, as equalities of states (the canonical form is the model's choice, log 2; sections 1 and
7). -/
def Obligations.StoresLeaveNothingButTheirWords : Prop :=
  ∀ (s : State) (a b : Nat) (v w : Word), s.Inv → a < s.len → b < s.len →
    (a ≠ b → memWrite a v (memWrite b w s) = memWrite b w (memWrite a v s)) ∧
    memWrite a v (memWrite a w s) = memWrite a v s ∧
    memWrite a (memRead a s) s = s

/-! ### Resolution (40_execution_cycle.md) -/

/-- Read resolution in each mode: Immediate is the raw word and never faults; Position and
Relative name an exact address, a negative one and one at or beyond the limit fault, one past
`len` reads 0 and any other the word there (R65). -/
def Obligations.ReadParameterResolution : Prop :=
  ∀ (raw : Word) (s : State),
    readParam .immediate raw s = .ok raw ∧
    (∀ (m : Mode) (x : Int),
      (m = .position ∧ x = raw.toInt) ∨ (m = .relative ∧ x = raw.toInt + s.rb.toInt) →
        (x < 0 → readParam m raw s = .error .invalidAddressConversion) ∧
        ((Config.memLimit : Int) ≤ x → readParam m raw s = .error .memoryBounds) ∧
        (0 ≤ x → x < (Config.memLimit : Int) →
          ((s.len : Int) ≤ x → readParam m raw s = .ok 0) ∧
          (x < (s.len : Int) → readParam m raw s = .ok (Memory.read s.mem x.toNat))))

/-- Write resolution in each mode, with the `MemSlot` done at resolution (section 3). -/
def Obligations.WriteParameterResolution : Prop :=
  ∀ (raw : Word) (s : State),
    writeParam .immediate raw s = .error .invalidWriteTarget ∧
    (∀ (m : Mode) (x : Int),
      (m = .position ∧ x = raw.toInt) ∨ (m = .relative ∧ x = raw.toInt + s.rb.toInt) →
        (x < 0 → writeParam m raw s = .error .invalidAddressConversion) ∧
        ((Config.memLimit : Int) ≤ x → writeParam m raw s = .error .memoryBounds) ∧
        (0 ≤ x → x < (Config.memLimit : Int) →
          writeParam m raw s = .ok (x.toNat, memSlot x.toNat s)))

/-- A fault of resolution is that of the first slot in order, and is taken in the state as the
step found it: no growth, no transfer (sections 3 and 4; 60_exceptions.md section 2). -/
def Obligations.FirstResolutionFaultIsTaken : Prop :=
  ∀ (m : Modes) (p0 p1 p2 : Word) (s : State) (k : FaultKind),
    (readParam m.m0 p0 s = .error k →
      (∀ i ∈ [Instr.add m p0 p1 p2, .mul m p0 p1 p2, .lt m p0 p1 p2, .eq m p0 p1 p2,
        .jt m p0 p1, .jf m p0 p1, .output m p0, .arb m p0], exec i s = .next (takeFault k s))) ∧
    (∀ a, readParam m.m0 p0 s = .ok a → readParam m.m1 p1 s = .error k →
      (∀ i ∈ [Instr.add m p0 p1 p2, .mul m p0 p1 p2, .lt m p0 p1 p2, .eq m p0 p1 p2,
        .jt m p0 p1, .jf m p0 p1], exec i s = .next (takeFault k s))) ∧
    (∀ a b, readParam m.m0 p0 s = .ok a → readParam m.m1 p1 s = .ok b →
      writeTarget m.m2 p2 s = .error k →
      (∀ i ∈ [Instr.add m p0 p1 p2, .mul m p0 p1 p2, .lt m p0 p1 p2, .eq m p0 p1 p2],
        exec i s = .next (takeFault k s))) ∧
    (writeTarget m.m0 p0 s = .error k → exec (.input m p0) s = .next (takeFault k s))

/-- An instruction with an Immediate write parameter decodes, and running it faults
`InvalidWriteTarget` once its read parameters have resolved, with nothing else changed
(30_encoding.md section 5; section 3). -/
def Obligations.ImmediateWriteTargetFaults : Prop :=
  ∀ (m : Modes) (p0 p1 p2 a b : Word) (s : State),
    (m.m2 = .immediate → readParam m.m0 p0 s = .ok a → readParam m.m1 p1 s = .ok b →
      ∀ i ∈ [Instr.add m p0 p1 p2, .mul m p0 p1 p2, .lt m p0 p1 p2, .eq m p0 p1 p2],
        i.wellFormed = false ∧ exec i s = .next (takeFault .invalidWriteTarget s)) ∧
    (m.m0 = .immediate → (Instr.input m p0).wellFormed = false ∧
      exec (.input m p0) s = .next (takeFault .invalidWriteTarget s))

/-! ### The step (40_execution_cycle.md) -/

/-- When the words at `ip` decode to an instruction and the engine runs, the step is `exec` of it
in that state: this hardware's step adds nothing around it (section 1). -/
def Obligations.StepRunsTheDecodedInstruction : Prop :=
  ∀ (s : State) (i : Instr) (rest : List Word), s.phase = .running →
    decode (fetchWindow s) = .ok (i, rest) → step s = exec i s

/-- In phase Halted or Faulted a step does nothing (R62). -/
def Obligations.StoppedEngineDoesNothing : Prop :=
  ∀ s : State, (s.phase = .halted ∨ ∃ k, s.phase = .faulted k) → step s = .next s

/-- The instruction fetch: through the data's controller, `MemoryBounds` at and beyond the limit,
0 past `len`, which is an unknown opcode, and never a conversion fault (R63). -/
def Obligations.InstructionFetch : Prop :=
  ∀ s : State, s.phase = .running →
    (s.ip < Config.memLimit → fetchWord s.ip s = .ok (memRead s.ip s)) ∧
    (Config.memLimit ≤ s.ip → step s = .next (takeFault .memoryBounds s)) ∧
    (s.len ≤ s.ip → s.ip < Config.memLimit →
      fetchWord s.ip s = .ok 0 ∧ step s = .next (takeFault .unknownOpcode s)) ∧
    fetchWord s.ip s ≠ .error .invalidAddressConversion

/-- After a successful decode the `N` raw words after `ip` are fetched, 0 past `len`; one at or
beyond the limit faults `MemoryBounds` before any resolution; Halt fetches none (R64). -/
def Obligations.OperandFetchPrecedesResolution : Prop :=
  ∀ (s : State) (op : Opcode) (m : Modes), s.phase = .running → s.ip < Config.memLimit →
    decodeHead (memRead s.ip s) = .ok (op, m) →
      (Config.memLimit ≤ s.ip + op.arity → op ≠ .halt → step s = .next (takeFault .memoryBounds s)) ∧
      (s.ip + op.arity < Config.memLimit →
        step s = exec (build op m ((List.range op.arity).map fun k => memRead (s.ip + 1 + k) s)) s) ∧
      (op = .halt → step s = exec (.halt m) s) ∧
      (∀ a, s.len ≤ a → memRead a s = 0)

/-- Every step answers a next state: the engine's faults are entries, not stops of the model
(60_exceptions.md section 3; log 3). -/
def Obligations.EveryStepAnswersNext : Prop :=
  ∀ s : State, ∃ t, step s = .next t

/-- The advance of a completed step, whatever the step stored, its own words included: `1 + N`
but for a taken jump, which goes to its target, and Halt, which stays (R71). -/
def Obligations.PointerAfterCompletedStep : Prop :=
  ∀ (s t : State) (i : Instr), s.phase = .running → fetchInstr s = .ok i → step s = .next t →
    (t.phase = .halted → t.ip = s.ip ∧ ∃ m, i = .halt m) ∧
    (t.phase = .running → t.wait = .idle →
      match i with
      | .jt m p0 p1 => ∃ c g, readParam m.m0 p0 s = .ok c ∧ readParam m.m1 p1 s = .ok g ∧
          (c ≠ 0 → (t.ip : Int) = g.toInt) ∧ (c = 0 → t.ip = s.ip + 3)
      | .jf m p0 p1 => ∃ c g, readParam m.m0 p0 s = .ok c ∧ readParam m.m1 p1 s = .ok g ∧
          (c = 0 → (t.ip : Int) = g.toInt) ∧ (c ≠ 0 → t.ip = s.ip + 3)
      | _ => t.ip = s.ip + 1 + i.opcode.arity)

/-- A fault is precise: `ip`, `rb` and every word keep their values, `len` keeps exactly the
growth of the step's own resolution, no output is delivered and no input consumed (R72). -/
def Obligations.FaultIsPrecise : Prop :=
  ∀ (s t : State) (k : FaultKind), s.phase = .running → step s = .next t →
    t.phase = .faulted k →
      t.ip = s.ip ∧ t.rb = s.rb ∧ (∀ x, memRead x t = memRead x s) ∧ t.len = grownLen s ∧
      t.ports = s.ports

/-- Whatever a running engine's step does, `len` afterwards is what resolution made of it: it never
shrinks and grows for a write parameter only (10_state.md section 7; section 3). -/
def Obligations.LengthGrowsAtResolutionOnly : Prop :=
  ∀ s t : State, s.phase = .running → step s = .next t → t.len = grownLen s ∧ s.len ≤ t.len

/-- A word changes only where the instruction at `ip` stores: by ADD, MUL, LT, EQ or IN, at its
own write address (10_state.md section 7; section 4). -/
def Obligations.OnlyTheWriteAddressChanges : Prop :=
  ∀ (s t : State) (x : Nat), step s = .next t → memRead x t ≠ memRead x s →
    s.phase = .running ∧ ∃ i, fetchInstr s = .ok i ∧ writeAddress i s = some x ∧
      i.opcode ∈ [Opcode.add, .mul, .lt, .eq, .input]

/-- The base changes only by ARB (10_state.md section 5). -/
def Obligations.OnlyRelativeBaseOffsetChangesBase : Prop :=
  ∀ s t : State, step s = .next t → t.rb ≠ s.rb →
    s.phase = .running ∧ ∃ m p, fetchInstr s = .ok (.arb m p)

/-- The phase changes in two ways only: Running to Halted, when a Halt executes, and Running to
Faulted. Halted and Faulted are final (10_state.md section 5). -/
def Obligations.PhaseChangesTwoWays : Prop :=
  ∀ s t : State, step s = .next t → t.phase ≠ s.phase →
    s.phase = .running ∧
    ((t.phase = .halted ∧ ∃ m, fetchInstr s = .ok (.halt m)) ∨ ∃ k, t.phase = .faulted k)

/-- At most one event passes at the ports in a step, after those before it: outputs leave in
program order, inputs are taken one at a time (42_io.md section 1; the log of events is the
model's, log 7). -/
def Obligations.PortEventsAppendInOrder : Prop :=
  ∀ s t : State, step s = .next t →
    t.ports = s.ports ∨
    (∃ m p v, fetchInstr s = .ok (.input m p) ∧ t.ports = s.ports ++ [.taken v] ∧
      (hostDraw s).offered = some v) ∨
    (∃ m p v, fetchInstr s = .ok (.output m p) ∧ t.ports = s.ports ++ [.delivered v] ∧
      readParam m.m0 p s = .ok v ∧ (hostDraw s).outReady = true) ∨
    (∃ m, fetchInstr s = .ok (.halt m) ∧ t.ports = s.ports ++ [.endOfStream])

/-- Only Input and Output read the environment: any other instruction does the same under every
list of draws and leaves the draws alone (section 1, the rule of `env`; the list is the model's,
log 4). -/
def Obligations.OtherInstructionsIgnoreTheHost : Prop :=
  ∀ (i : Instr) (s t : State) (ds : List HostDraw) (n : Nat), isPortInstr i = false →
    exec i s = .next t →
      exec i { s with host := ds, freeDraws := n } = .next { t with host := ds, freeDraws := n }

/-! ### The instructions: completion, result and frame -/

/-- ADD stores the exact sum where it is a word, and advances by 4 (41_arithmetic.md section 2). -/
def Obligations.AddStoresTheSum : Prop :=
  ∀ (m : Modes) (p0 p1 p2 a b : Word) (d : Nat) (s : State), s.Inv →
    readParam m.m0 p0 s = .ok a → readParam m.m1 p1 s = .ok b →
    writeTarget m.m2 p2 s = .ok d →
    Config.wmin ≤ a.toInt + b.toInt → a.toInt + b.toInt ≤ Config.wmax →
      ∃ t, exec (.add m p0 p1 p2) s = .next t ∧ s.stores t d (a.toInt + b.toInt) ∧
        t.ip = s.ip + 4 ∧ t.rb = s.rb ∧ t.phase = s.phase ∧ t.wait = .idle ∧ s.keepsPorts t

/-- MUL stores the exact product where it is a word, and advances by 4 (41_arithmetic.md
section 3). -/
def Obligations.MultiplyStoresTheProduct : Prop :=
  ∀ (m : Modes) (p0 p1 p2 a b : Word) (d : Nat) (s : State), s.Inv →
    readParam m.m0 p0 s = .ok a → readParam m.m1 p1 s = .ok b →
    writeTarget m.m2 p2 s = .ok d →
    Config.wmin ≤ a.toInt * b.toInt → a.toInt * b.toInt ≤ Config.wmax →
      ∃ t, exec (.mul m p0 p1 p2) s = .next t ∧ s.stores t d (a.toInt * b.toInt) ∧
        t.ip = s.ip + 4 ∧ t.rb = s.rb ∧ t.phase = s.phase ∧ t.wait = .idle ∧ s.keepsPorts t

/-- ADD and MUL whose exact result is no word fault `ArithmeticOverflow`: nothing is stored,
`len` keeps the growth of resolution, `ip` stays (41_arithmetic.md section 1). -/
def Obligations.ArithmeticOverflowFaults : Prop :=
  ∀ (m : Modes) (p0 p1 p2 a b : Word) (d : Nat) (s : State),
    readParam m.m0 p0 s = .ok a → readParam m.m1 p1 s = .ok b →
    writeTarget m.m2 p2 s = .ok d →
      ((a.toInt + b.toInt < Config.wmin ∨ Config.wmax < a.toInt + b.toInt) →
        exec (.add m p0 p1 p2) s = .next (takeFault .arithmeticOverflow (memSlot d s))) ∧
      ((a.toInt * b.toInt < Config.wmin ∨ Config.wmax < a.toInt * b.toInt) →
        exec (.mul m p0 p1 p2) s = .next (takeFault .arithmeticOverflow (memSlot d s)))

/-- The word stored for an exact result, under either overflow mode: the result itself where it
is a word; else a fault under Fault, and under Wrap the one word congruent to it modulo
2^`WORD_BITS` (section 4). -/
def Obligations.NarrowingUnderBothModes : Prop :=
  ∀ r : Int,
    (Config.wmin ≤ r → r ≤ Config.wmax → ∀ mode, ∃ w, narrow mode r = .ok w ∧ w.toInt = r) ∧
    ((r < Config.wmin ∨ Config.wmax < r) →
      narrow .fault r = .error .arithmeticOverflow ∧
      ∃ w, narrow .wrap r = .ok w ∧ w.toInt = (r - Config.wmin) % 2 ^ 64 + Config.wmin ∧
        ∃ k : Int, r = w.toInt + k * 2 ^ 64)

/-- LT stores 1 where `a < b` as signed integers and 0 otherwise, and advances by 4
(44_compare.md section 2). -/
def Obligations.LessThanStoresItsOutcome : Prop :=
  ∀ (m : Modes) (p0 p1 p2 a b : Word) (d : Nat) (s : State), s.Inv →
    readParam m.m0 p0 s = .ok a → readParam m.m1 p1 s = .ok b →
    writeTarget m.m2 p2 s = .ok d →
      ∃ t, exec (.lt m p0 p1 p2) s = .next t ∧
        s.stores t d (if a.toInt < b.toInt then 1 else 0) ∧
        t.ip = s.ip + 4 ∧ t.rb = s.rb ∧ t.phase = s.phase ∧ t.wait = .idle ∧ s.keepsPorts t

/-- EQ stores 1 where `a = b` and 0 otherwise, and advances by 4 (44_compare.md section 3). -/
def Obligations.EqualsStoresItsOutcome : Prop :=
  ∀ (m : Modes) (p0 p1 p2 a b : Word) (d : Nat) (s : State), s.Inv →
    readParam m.m0 p0 s = .ok a → readParam m.m1 p1 s = .ok b →
    writeTarget m.m2 p2 s = .ok d →
      ∃ t, exec (.eq m p0 p1 p2) s = .next t ∧
        s.stores t d (if a.toInt = b.toInt then 1 else 0) ∧
        t.ip = s.ip + 4 ∧ t.rb = s.rb ∧ t.phase = s.phase ∧ t.wait = .idle ∧ s.keepsPorts t

/-- IN with a word offered stores it, takes it once at the port, and advances by 2 (42_io.md
section 3). -/
def Obligations.InputStoresTheOfferedWord : Prop :=
  ∀ (m : Modes) (p0 v : Word) (d : Nat) (s : State), s.Inv →
    writeTarget m.m0 p0 s = .ok d → (hostDraw s).offered = some v →
      ∃ t, exec (.input m p0) s = .next t ∧ s.stores t d v.toInt ∧
        t.ip = s.ip + 2 ∧ t.rb = s.rb ∧ t.phase = s.phase ∧ t.wait = .idle ∧
        t.ports = s.ports ++ [.taken v] ∧ s.takesDraw t

/-- IN with no word offered holds, or faults `InputTimeout` where `TIMEOUT` has fired: either way
no word changes, `len` keeps the growth of resolution, `ip` and `rb` stay and nothing passes at
the port (42_io.md section 2). -/
def Obligations.InputHoldsOrTimesOut : Prop :=
  ∀ (m : Modes) (p0 : Word) (d : Nat) (s : State),
    writeTarget m.m0 p0 s = .ok d → (hostDraw s).offered = none →
      ∃ t, exec (.input m p0) s = .next t ∧ (∀ x, memRead x t = memRead x s) ∧
        t.len = max s.len (d + 1) ∧ t.ip = s.ip ∧ t.rb = s.rb ∧ t.ports = s.ports ∧
        s.takesDraw t ∧
        ((hostDraw s).timedOut = false → t.phase = s.phase ∧ t.wait = .input) ∧
        ((hostDraw s).timedOut = true → t.phase = .faulted .inputTimeout ∧ t.wait = .idle)

/-- OUT with the host ready delivers its word once and advances by 2; it writes no memory and
never grows `len` (42_io.md section 4). -/
def Obligations.OutputDeliversItsWord : Prop :=
  ∀ (m : Modes) (p0 v : Word) (s : State),
    readParam m.m0 p0 s = .ok v → (hostDraw s).outReady = true →
      ∃ t, exec (.output m p0) s = .next t ∧ s.keepsMemory t ∧
        t.ip = s.ip + 2 ∧ t.rb = s.rb ∧ t.phase = s.phase ∧ t.wait = .idle ∧
        t.ports = s.ports ++ [.delivered v] ∧ s.takesDraw t

/-- OUT with the host not ready holds, offering its word, or faults `OutputTimeout`: nothing else
changes (42_io.md section 2). -/
def Obligations.OutputHoldsOrTimesOut : Prop :=
  ∀ (m : Modes) (p0 v : Word) (s : State),
    readParam m.m0 p0 s = .ok v → (hostDraw s).outReady = false →
      ∃ t, exec (.output m p0) s = .next t ∧ s.keepsMemory t ∧ t.ip = s.ip ∧ t.rb = s.rb ∧
        t.ports = s.ports ∧ s.takesDraw t ∧
        ((hostDraw s).timedOut = false → t.phase = s.phase ∧ t.wait = .output v) ∧
        ((hostDraw s).timedOut = true → t.phase = .faulted .outputTimeout ∧ t.wait = .idle)

/-- A ready partner wins over the timeout: the transfer completes whatever `timed_out` says, and
a timeout fault is raised only while the partner is not ready (42_io.md R83). -/
def Obligations.ReadyPartnerBeatsTimeout : Prop :=
  ∀ (m : Modes) (p0 : Word) (s t : State), s.phase = .running →
    (exec (.input m p0) s = .next t →
      (∀ d v, writeTarget m.m0 p0 s = .ok d → (hostDraw s).offered = some v →
        t.phase = .running ∧ t.ip = s.ip + 2 ∧ t.ports = s.ports ++ [.taken v]) ∧
      (t.phase = .faulted .inputTimeout → (hostDraw s).offered = none)) ∧
    (exec (.output m p0) s = .next t →
      (∀ v, readParam m.m0 p0 s = .ok v → (hostDraw s).outReady = true →
        t.phase = .running ∧ t.ip = s.ip + 2 ∧ t.ports = s.ports ++ [.delivered v]) ∧
      (t.phase = .faulted .outputTimeout → (hostDraw s).outReady = false))

/-- JT: a test that is not 0 goes to a target that is not negative, the limit and above
included; a negative target faults and leaves all else; a test of 0 advances by 3 and never looks
at the target (43_jumps.md section 2). -/
def Obligations.JumpIfTrueOutcome : Prop :=
  ∀ (m : Modes) (p0 p1 c g : Word) (s : State),
    readParam m.m0 p0 s = .ok c → readParam m.m1 p1 s = .ok g →
      (c ≠ 0 → 0 ≤ g.toInt →
        exec (.jt m p0 p1) s = .next { s with ip := g.toNat, wait := .idle }) ∧
      (c ≠ 0 → g.toInt < 0 →
        exec (.jt m p0 p1) s = .next (takeFault .invalidAddressConversion s)) ∧
      (c = 0 → exec (.jt m p0 p1) s = .next { s with ip := s.ip + 3, wait := .idle })

/-- JF: the same with the test reversed (43_jumps.md section 3). -/
def Obligations.JumpIfFalseOutcome : Prop :=
  ∀ (m : Modes) (p0 p1 c g : Word) (s : State),
    readParam m.m0 p0 s = .ok c → readParam m.m1 p1 s = .ok g →
      (c = 0 → 0 ≤ g.toInt →
        exec (.jf m p0 p1) s = .next { s with ip := g.toNat, wait := .idle }) ∧
      (c = 0 → g.toInt < 0 →
        exec (.jf m p0 p1) s = .next (takeFault .invalidAddressConversion s)) ∧
      (c ≠ 0 → exec (.jf m p0 p1) s = .next { s with ip := s.ip + 3, wait := .idle })

/-- ARB adds its operand, read with the old base, to the base, and advances by 2; a sum that is no
word faults `ArithmeticOverflow` and leaves the base (45_base_and_halt.md section 1). -/
def Obligations.RelativeBaseOffsetOutcome : Prop :=
  ∀ (m : Modes) (p0 v : Word) (s : State), readParam m.m0 p0 s = .ok v →
    (Config.wmin ≤ s.rb.toInt + v.toInt → s.rb.toInt + v.toInt ≤ Config.wmax →
      ∃ t, exec (.arb m p0) s = .next t ∧ t.rb.toInt = s.rb.toInt + v.toInt ∧
        t.ip = s.ip + 2 ∧ s.keepsMemory t ∧ t.phase = s.phase ∧ t.wait = .idle ∧
        s.keepsPorts t) ∧
    ((s.rb.toInt + v.toInt < Config.wmin ∨ Config.wmax < s.rb.toInt + v.toInt) →
      exec (.arb m p0) s = .next (takeFault .arithmeticOverflow s))

/-- HALT, with any legal mode digits, sets the phase and signals the end of the output stream; it
leaves `ip`, `rb` and memory, and takes no draw (45_base_and_halt.md section 2). -/
def Obligations.HaltEndsTheRun : Prop :=
  ∀ (m : Modes) (s : State),
    ∃ t, exec (.halt m) s = .next t ∧ t.phase = .halted ∧ t.ports = s.ports ++ [.endOfStream] ∧
      t.ip = s.ip ∧ t.rb = s.rb ∧ s.keepsMemory t ∧ t.wait = .idle ∧ t.host = s.host ∧
      t.freeDraws = s.freeDraws ∧ step t = .next t

/-- A store is seen by the next fetch, with no fence: where a completed ADD, MUL, LT, EQ or IN has
its write address at the `ip` it leaves, what it stored is the word fetched there, and the next step
faults or runs by the decoding of that word (20_memory.md section 7; the field that tells a completed
step from a hold and the draws are the model's, logs 6 and 4). -/
def Obligations.StoreIsSeenByTheNextFetch : Prop :=
  ∀ (s t : State) (i : Instr), s.Inv → s.phase = .running → fetchInstr s = .ok i →
    step s = .next t → t.phase = .running → t.wait = .idle → writeAddress i s = some t.ip →
      t.ip = s.ip + i.length ∧
      ∃ w : Word, fetchWord t.ip t = .ok w ∧ s.storedValue i w.toInt ∧
        (∀ e, decodeHead w = .error e → step t = .next (takeFault (decodeFault e) t)) ∧
        (∀ op m, decodeHead w = .ok (op, m) →
          (t.ip + op.arity < Config.memLimit → step t =
            exec (build op m ((List.range op.arity).map fun k => memRead (t.ip + 1 + k) t)) t) ∧
          (Config.memLimit ≤ t.ip + op.arity → step t = .next (takeFault .memoryBounds t)))

/-! ### Whole-machine properties -/

/-- Every step keeps the invariant: the store's list canonical and with nothing listed past `len`
(the list and its canonical form are the model's choice, log 2; R21's content is that the words past
`len` are 0), `len` within the limit, `ip` within the words, holds only while Running (the hold's
field is the model's, log 6), `OUT_EOS` once, last, exactly at Halt (the list of port events is the
model's, log 7). -/
def Obligations.StepKeepsTheStateInvariant : Prop :=
  ∀ s t : State, s.Inv → step s = .next t → t.Inv

/-- Every step keeps the meaning of a hold: what is held is the Input or Output at `ip`, resolved,
and an Output offers the word it reads (42_io.md section 1; `wait` is the model's record of it,
log 6). -/
def Obligations.StepKeepsTheHoldMeaning : Prop :=
  ∀ s t : State, s.HoldMatches → step s = .next t → t.HoldMatches

/-- Both invariants hold at reset and after every `LOAD` the block accepts (70_reset_and_hazards.md
section 1). The canonical form of the store's list is the model's choice, log 2; that reset loads the
empty program, log 9; the hold's field, log 6; the list of port events, log 7. -/
def Obligations.ResetAndLoadMeetTheInvariants : Prop :=
  (State.reset.Inv ∧ State.reset.HoldMatches) ∧
  ∀ (program : List Int) (s t : State), load program s = some t → t.Inv ∧ t.HoldMatches

/-- Redoing a held step is harmless: after a hold, the next attempt does exactly what the first
would have done under the next draw (10_state.md R22, 42_io.md section 2; the draws are the model's
account of the host, log 4, and the field that shows a hold is log 6's). -/
def Obligations.HeldStepIsRedoneWhole : Prop :=
  ∀ s t : State, s.phase = .running → step s = .next t → t.wait ≠ .idle →
    step t = step (takeDraw s)

/-- No program can observe `len` or how the store is written out: states with the same words and
other fields step to states with the same words and other fields (10_state.md section 7; the store's
list and its canonical form are the model's, log 2). -/
def Obligations.LengthIsUnobservable : Prop :=
  ∀ s s' t t' : State, s.Inv → s'.Inv → s.SameWords s' → step s = .next t →
    step s' = .next t' → t.SameWords t'

/-! ### The host's side (10_state.md, 60_exceptions.md, 70_reset_and_hazards.md) -/

/-- `STATUS`: the fields of R17 and the fault codes of R97, in every state; bits 8 and up read as
0 (10_state.md section 5). -/
def Obligations.StatusWordFields : Prop :=
  ∀ s : State,
    ((status s).toNat % 4 = match s.phase with | .running => 0 | .halted => 1 | .faulted _ => 2) ∧
    ((status s).toNat / 4 % 16 = match s.phase with
      | .running => 0 | .halted => 0
      | .faulted .unknownOpcode => 1 | .faulted .unknownParameterMode => 2
      | .faulted .memoryBounds => 3 | .faulted .invalidAddressConversion => 4
      | .faulted .invalidWriteTarget => 5 | .faulted .inputTimeout => 6
      | .faulted .outputTimeout => 7 | .faulted .arithmeticOverflow => 8) ∧
    ((status s).toNat / 64 % 2 = 1 ↔ s.wait = .input) ∧
    ((status s).toNat / 128 % 2 = 1 ↔ ∃ v, s.wait = .output v) ∧
    (status s).toNat / 256 = 0

/-- `IN_WAIT` and `OUT_WAIT` after a step of a running engine show whether that step held, and
nothing older (10_state.md section 5). -/
def Obligations.WaitBitsShowTheLastStep : Prop :=
  ∀ s t : State, s.phase = .running → step s = .next t →
    (t.wait = .input ↔ ∃ m p d, fetchInstr s = .ok (.input m p) ∧
      writeTarget m.m0 p s = .ok d ∧ (hostDraw s).offered = none ∧
      (hostDraw s).timedOut = false) ∧
    (∀ v, t.wait = .output v ↔ ∃ m p, fetchInstr s = .ok (.output m p) ∧
      readParam m.m0 p s = .ok v ∧ (hostDraw s).outReady = false ∧
      (hostDraw s).timedOut = false)

/-- The state after `LOAD(program)`, in whatever state it comes (R111, R113). -/
def Obligations.LoadEstablishesTheProgram : Prop :=
  ∀ (program : List Int) (s : State), program.length ≤ Config.memLimit →
    (∀ v ∈ program, Config.wmin ≤ v ∧ v ≤ Config.wmax) →
      ∃ t, load program s = some t ∧
        (∀ a, a < program.length → (memRead a t).toInt = program.getD a 0) ∧
        (∀ a, program.length ≤ a → Memory.read t.mem a = 0) ∧
        t.len = program.length ∧ t.ip = 0 ∧ t.rb = 0 ∧ t.phase = .running ∧ status t = 0 ∧
        t.wait = .idle ∧ eosSignalled t = false

/-- `LOAD` refuses a program that is too long or holds a value that is no word, and the previous
state stays; the empty program is legal and its first step faults `UnknownOpcode` at 0 (R112). -/
def Obligations.LoadRefusesWhatIsNoProgram : Prop :=
  (∀ (program : List Int) (s : State),
    (Config.memLimit < program.length ∨ ∃ v ∈ program, v < Config.wmin ∨ Config.wmax < v) →
      load program s = none ∧ loadRequest program s = s) ∧
  (∀ s : State, ∃ t u, load [] s = some t ∧ step t = .next u ∧
    u.phase = .faulted .unknownOpcode ∧ u.ip = 0)

/-- The state the machine is in right after reset is that of `LOAD` of the empty program
(70_reset_and_hazards.md section 1; that reset loads the empty program, and the empty list of
draws, are the model's, logs 9 and 4). -/
def Obligations.ResetIsLoadOfTheEmptyProgram : Prop :=
  load [] State.reset = some State.reset ∧ State.reset.mem = [] ∧ State.reset.len = 0 ∧
    State.reset.ip = 0 ∧ State.reset.rb = 0 ∧ State.reset.phase = .running ∧
    status State.reset = 0

/-- `RUN` is `STEP` repeated: it ends where the phase is not Running, and more fuel then changes
nothing (section 5; the fuel is the model's, log 11). -/
def Obligations.RunIsRepeatedStep : Prop :=
  (∀ (n : Nat) (s : State), run n s = Host.Core.run Sys2Proof.core n s) ∧
  (∀ (n k : Nat) (s t : State), run n s = .next t → t.phase ≠ .running →
    run (n + k) s = .next t)

/-- A numbered instruction placed where the next step fetches is what that step runs (the placing
is the model's, logs 9 and 13; section 1). -/
def Obligations.PlacedInstructionIsTheNextRun : Prop :=
  ∀ (s : State) (nbits w : Nat) (i : Instr), s.Inv → s.ip + 4 ≤ Config.memLimit →
    decodeTableWord nbits w = some i →
      step (s.withFetchWord nbits w) = exec i (s.withFetchWord nbits w)
end

