-- ==== Sys2Proof/Laws/Memory.lean ====
section
/-! SUPPORT. The laws of the sparse word store: read after write, zero-fill, the canonical form
that every operation keeps, and that equal contents are equal data. -/

namespace Sys2Proof.Machine

open Sys2Proof

theorem Memory.read_cons (b : Nat) (w : Word) (m : Memory) (a : Nat) :
    Memory.read ((b, w) :: m) a = if a = b then w else Memory.read m a := rfl

theorem Memory.wf_cons (b : Nat) (w : Word) (m : Memory) :
    Memory.wf ((b, w) :: m) = true ↔
      w ≠ Memory.unlisted ∧ (∀ c ∈ m, b < c.1) ∧ Memory.wf m = true := by
  simp [Memory.wf, and_assoc]

/-- An address no pair lists reads as `Memory.unlisted`. -/
theorem Memory.read_of_not_listed {m : Memory} {a : Nat} (h : ∀ c ∈ m, c.1 ≠ a) :
    Memory.read m a = Memory.unlisted := by
  induction m with
  | nil => rfl
  | cons c m ih =>
    obtain ⟨b, w⟩ := c
    have hb : a ≠ b := fun e => h (b, w) (by simp) e.symm
    rw [Memory.read_cons, if_neg hb]
    exact ih fun c hc => h c (by simp [hc])

theorem Memory.read_write_same {m : Memory} (h : Memory.wf m = true) (a : Nat) (v : Word) :
    Memory.read (Memory.write m a v) a = v := by
  induction m with
  | nil =>
    by_cases hv : v = Memory.unlisted <;> simp [Memory.write, Memory.read, hv]
  | cons c m ih =>
    obtain ⟨b, w⟩ := c
    obtain ⟨-, hlt, hm⟩ := (Memory.wf_cons b w m).1 h
    have notListed : ∀ x, x ≤ b → Memory.read m x = Memory.unlisted := fun x hx =>
      Memory.read_of_not_listed fun c hc e => by have := hlt c hc; omega
    rcases Nat.lt_trichotomy a b with hab | hab | hab
    · by_cases hv : v = Memory.unlisted
      · simp [Memory.write, Memory.read_cons, hab, hv, Nat.ne_of_lt hab, notListed a (by omega)]
      · simp [Memory.write, Memory.read_cons, hab, hv]
    · subst hab
      by_cases hv : v = Memory.unlisted
      · simp [Memory.write, hv, notListed a (by omega)]
      · simp [Memory.write, Memory.read_cons, hv]
    · simp [Memory.write, Memory.read_cons, Nat.not_lt.2 (Nat.le_of_lt hab), Nat.ne_of_gt hab,
        ih hm]

theorem Memory.read_write_other (m : Memory) {a x : Nat} (v : Word) (h : x ≠ a) :
    Memory.read (Memory.write m a v) x = Memory.read m x := by
  induction m with
  | nil => by_cases hv : v = Memory.unlisted <;> simp [Memory.write, Memory.read, hv, h]
  | cons c m ih =>
    obtain ⟨b, w⟩ := c
    rcases Nat.lt_trichotomy a b with hab | hab | hab
    · by_cases hv : v = Memory.unlisted <;> simp [Memory.write, Memory.read_cons, hab, hv, h]
    · subst hab
      by_cases hv : v = Memory.unlisted <;> simp [Memory.write, Memory.read_cons, hv, h]
    · simp [Memory.write, Memory.read_cons, Nat.not_lt.2 (Nat.le_of_lt hab), Nat.ne_of_gt hab, ih]

theorem Memory.mem_write {m : Memory} {a : Nat} {v : Word} {c : Nat × Word}
    (h : c ∈ Memory.write m a v) : c.1 = a ∨ c ∈ m := by
  induction m with
  | nil =>
    by_cases hv : v = Memory.unlisted <;> simp [Memory.write, hv] at h
    simp [h]
  | cons b m ih =>
    obtain ⟨b, w⟩ := b
    simp only [Memory.write] at h
    split at h
    · split at h
      · exact .inr h
      · rcases List.mem_cons.1 h with rfl | h
        · exact .inl rfl
        · exact .inr h
    · split at h
      · split at h
        · exact .inr (List.mem_cons_of_mem _ h)
        · rcases List.mem_cons.1 h with rfl | h
          · exact .inl rfl
          · exact .inr (List.mem_cons_of_mem _ h)
      · rcases List.mem_cons.1 h with rfl | h
        · exact .inr (by simp)
        · exact (ih h).imp_right (List.mem_cons_of_mem _)

theorem Memory.wf_write {m : Memory} (h : Memory.wf m = true) (a : Nat) (v : Word) :
    Memory.wf (Memory.write m a v) = true := by
  induction m with
  | nil => by_cases hv : v = Memory.unlisted <;> simp [Memory.write, Memory.wf, hv]
  | cons c m ih =>
    obtain ⟨b, w⟩ := c
    obtain ⟨hw, hlt, hm⟩ := (Memory.wf_cons b w m).1 h
    simp only [Memory.write]
    split
    · next hab =>
      split
      · exact h
      · next hv =>
        refine (Memory.wf_cons a v _).2 ⟨hv, fun c hc => ?_, h⟩
        rcases List.mem_cons.1 hc with rfl | hc
        · exact hab
        · exact Nat.lt_trans hab (hlt c hc)
    · split
      · next hab =>
        split
        · exact hm
        · next hv => exact (Memory.wf_cons a v _).2 ⟨hv, fun c hc => hab ▸ hlt c hc, hm⟩
      · refine (Memory.wf_cons b w _).2 ⟨hw, fun c hc => ?_, ih hm⟩
        rcases Memory.mem_write hc with hc | hc
        · omega
        · exact hlt c hc

theorem Memory.zeroFill_cons (b : Nat) (w : Word) (m : Memory) (lo hi : Nat) :
    Memory.zeroFill ((b, w) :: m) lo hi =
      if lo ≤ b ∧ b ≤ hi then Memory.zeroFill m lo hi
      else (b, w) :: Memory.zeroFill m lo hi := by
  simp only [Memory.zeroFill, List.filter_cons]
  by_cases h1 : lo ≤ b <;> by_cases h2 : b ≤ hi <;> simp [h1, h2]

theorem Memory.read_zeroFill (m : Memory) (lo hi a : Nat) :
    Memory.read (Memory.zeroFill m lo hi) a =
      if lo ≤ a ∧ a ≤ hi then Memory.unlisted else Memory.read m a := by
  induction m with
  | nil => simp [Memory.zeroFill, Memory.read]
  | cons c m ih =>
    obtain ⟨b, w⟩ := c
    rw [Memory.zeroFill_cons, Memory.read_cons]
    split
    · next hb =>
      rw [ih]
      by_cases hab : a = b
      · subst hab; simp [hb]
      · simp [hab]
    · next hb =>
      rw [Memory.read_cons, ih]
      by_cases hab : a = b
      · subst hab; simp [hb]
      · simp [hab]

theorem Memory.wf_filter {m : Memory} (h : Memory.wf m = true) (p : Nat × Word → Bool) :
    Memory.wf (m.filter p) = true := by
  induction m with
  | nil => rfl
  | cons c m ih =>
    obtain ⟨b, w⟩ := c
    obtain ⟨hw, hlt, hm⟩ := (Memory.wf_cons b w m).1 h
    rw [List.filter_cons]
    split
    · exact (Memory.wf_cons b w _).2 ⟨hw, fun c hc => hlt c (List.mem_filter.1 hc).1, ih hm⟩
    · exact ih hm

theorem Memory.wf_zeroFill {m : Memory} (h : Memory.wf m = true) (lo hi : Nat) :
    Memory.wf (Memory.zeroFill m lo hi) = true := Memory.wf_filter h _

/-- Filling a range nothing is listed in changes nothing. -/
theorem Memory.zeroFill_of_not_listed {m : Memory} {lo hi : Nat} (h : ∀ c ∈ m, c.1 < lo) :
    Memory.zeroFill m lo hi = m := by
  refine List.filter_eq_self.2 fun c hc => ?_
  have := h c hc
  simp [Nat.not_le.2 this]

theorem Memory.mem_ofWords {ws : List Word} {a : Nat} {c : Nat × Word}
    (h : c ∈ Memory.ofWords a ws) : a ≤ c.1 ∧ c.1 < a + ws.length := by
  induction ws generalizing a with
  | nil => simp [Memory.ofWords] at h
  | cons w ws ih =>
    simp only [Memory.ofWords] at h
    split at h
    · have := ih h
      simp only [List.length_cons]; omega
    · rcases List.mem_cons.1 h with rfl | h
      · simp
      · have := ih h
        simp only [List.length_cons]; omega

theorem Memory.wf_ofWords (a : Nat) (ws : List Word) : Memory.wf (Memory.ofWords a ws) = true := by
  induction ws generalizing a with
  | nil => rfl
  | cons w ws ih =>
    simp only [Memory.ofWords]
    split
    · exact ih _
    · next hw =>
      exact (Memory.wf_cons a w _).2 ⟨hw, fun c hc => (Memory.mem_ofWords hc).1, ih _⟩

theorem Memory.read_ofWords (ws : List Word) (a x : Nat) :
    Memory.read (Memory.ofWords a ws) (a + x) = ws.getD x Memory.unlisted := by
  induction ws generalizing a x with
  | nil => simp [Memory.ofWords, Memory.read]
  | cons w ws ih =>
    cases x with
    | zero =>
      simp only [Memory.ofWords]
      split
      · next hw =>
        have : Memory.read (Memory.ofWords (a + 1) ws) a = Memory.unlisted :=
          Memory.read_of_not_listed fun c hc e => by have := (Memory.mem_ofWords hc).1; omega
        simp [this, hw]
      · simp [Memory.read_cons]
    | succ x =>
      have := ih (a + 1) x
      rw [show a + 1 + x = a + (x + 1) by omega] at this
      simp only [Memory.ofWords]
      split
      · simpa using this
      · rw [Memory.read_cons, if_neg (by omega)]
        simpa using this

/-- Stores in canonical form with the same contents are the same list. -/
theorem Memory.ext_of_wf {m n : Memory} (hm : Memory.wf m = true) (hn : Memory.wf n = true)
    (h : ∀ a, Memory.read m a = Memory.read n a) : m = n := by
  induction m generalizing n with
  | nil =>
    cases n with
    | nil => rfl
    | cons c n =>
      obtain ⟨b, w⟩ := c
      have := h b
      simp only [Memory.read, if_true] at this
      exact absurd this.symm ((Memory.wf_cons b w n).1 hn).1
  | cons c m ih =>
    obtain ⟨a, v⟩ := c
    obtain ⟨hv, hlt, hm'⟩ := (Memory.wf_cons a v m).1 hm
    cases n with
    | nil =>
      have := h a
      simp only [Memory.read, if_true] at this
      exact absurd this hv
    | cons c n =>
      obtain ⟨b, w⟩ := c
      obtain ⟨hw, hlt', hn'⟩ := (Memory.wf_cons b w n).1 hn
      have low : ∀ {l : Memory} {p q : Nat}, (∀ c ∈ l, p < c.1) → q ≤ p →
          Memory.read l q = Memory.unlisted := fun hl hq =>
        Memory.read_of_not_listed fun c hc e => by have := hl c hc; omega
      have hab : a = b := by
        rcases Nat.lt_trichotomy a b with hab | hab | hab
        · have := h a
          rw [Memory.read_cons, Memory.read_cons, if_pos rfl, if_neg (by omega),
            low hlt' (by omega)] at this
          exact absurd this hv
        · exact hab
        · have := h b
          rw [Memory.read_cons, Memory.read_cons, if_neg (by omega), if_pos rfl,
            low hlt (by omega)] at this
          exact absurd this.symm hw
      subst hab
      have hvw : v = w := by simpa [Memory.read_cons] using h a
      subst hvw
      have : m = n := ih hm' hn' fun x => by
        by_cases hx : x = a
        · subst hx
          rw [low hlt (Nat.le_refl _), low hlt' (Nat.le_refl _)]
        · simpa [Memory.read_cons, hx] using h x
      rw [this]

end Sys2Proof.Machine
end

