-- ==== Sys2Proof/Laws/State.lean ====
section
/-! SUPPORT. What each named operation leaves in each field of the state: one lemma per field per
update, so that no later proof unfolds a record update. -/

namespace Sys2Proof.Machine

open Sys2Proof

variable (s : State)

section memSlot

variable (a : Nat)

@[simp]
theorem memSlot_mem : (memSlot a s).mem = if s.len ≤ a then Memory.zeroFill s.mem s.len a else s.mem := by unfold memSlot; split <;> rfl
@[simp]
theorem memSlot_len : (memSlot a s).len = if s.len ≤ a then a + 1 else s.len := by unfold memSlot; split <;> rfl
@[simp] theorem memSlot_ip : (memSlot a s).ip = s.ip := by unfold memSlot; split <;> rfl
@[simp] theorem memSlot_rb : (memSlot a s).rb = s.rb := by unfold memSlot; split <;> rfl
@[simp] theorem memSlot_phase : (memSlot a s).phase = s.phase := by unfold memSlot; split <;> rfl
@[simp] theorem memSlot_wait : (memSlot a s).wait = s.wait := by unfold memSlot; split <;> rfl
@[simp] theorem memSlot_ports : (memSlot a s).ports = s.ports := by unfold memSlot; split <;> rfl
@[simp] theorem memSlot_host : (memSlot a s).host = s.host := by unfold memSlot; split <;> rfl
@[simp]
theorem memSlot_freeDraws : (memSlot a s).freeDraws = s.freeDraws := by unfold memSlot; split <;> rfl

end memSlot

section memWrite

variable (a : Nat) (v : Word)

@[simp] theorem memWrite_mem : (memWrite a v s).mem = Memory.write s.mem a v := rfl
@[simp] theorem memWrite_len : (memWrite a v s).len = s.len := rfl
@[simp] theorem memWrite_ip : (memWrite a v s).ip = s.ip := rfl
@[simp] theorem memWrite_rb : (memWrite a v s).rb = s.rb := rfl
@[simp] theorem memWrite_phase : (memWrite a v s).phase = s.phase := rfl
@[simp] theorem memWrite_wait : (memWrite a v s).wait = s.wait := rfl
@[simp] theorem memWrite_ports : (memWrite a v s).ports = s.ports := rfl
@[simp] theorem memWrite_host : (memWrite a v s).host = s.host := rfl
@[simp] theorem memWrite_freeDraws : (memWrite a v s).freeDraws = s.freeDraws := rfl

end memWrite

section takeFault

variable (k : FaultKind)

@[simp] theorem takeFault_mem : (takeFault k s).mem = s.mem := rfl
@[simp] theorem takeFault_len : (takeFault k s).len = s.len := rfl
@[simp] theorem takeFault_ip : (takeFault k s).ip = s.ip := rfl
@[simp] theorem takeFault_rb : (takeFault k s).rb = s.rb := rfl
@[simp] theorem takeFault_phase : (takeFault k s).phase = .faulted k := rfl
@[simp] theorem takeFault_wait : (takeFault k s).wait = .idle := rfl
@[simp] theorem takeFault_ports : (takeFault k s).ports = s.ports := rfl
@[simp] theorem takeFault_host : (takeFault k s).host = s.host := rfl
@[simp] theorem takeFault_freeDraws : (takeFault k s).freeDraws = s.freeDraws := rfl

end takeFault

section advance

variable (n : Nat)

@[simp] theorem advance_mem : (advance n s).mem = s.mem := rfl
@[simp] theorem advance_len : (advance n s).len = s.len := rfl
@[simp] theorem advance_ip : (advance n s).ip = s.ip + n := rfl
@[simp] theorem advance_rb : (advance n s).rb = s.rb := rfl
@[simp] theorem advance_phase : (advance n s).phase = s.phase := rfl
@[simp] theorem advance_wait : (advance n s).wait = .idle := rfl
@[simp] theorem advance_ports : (advance n s).ports = s.ports := rfl
@[simp] theorem advance_host : (advance n s).host = s.host := rfl
@[simp] theorem advance_freeDraws : (advance n s).freeDraws = s.freeDraws := rfl

end advance

section jumpTo

variable (n : Nat)

@[simp] theorem jumpTo_mem : (jumpTo n s).mem = s.mem := rfl
@[simp] theorem jumpTo_len : (jumpTo n s).len = s.len := rfl
@[simp] theorem jumpTo_ip : (jumpTo n s).ip = n := rfl
@[simp] theorem jumpTo_rb : (jumpTo n s).rb = s.rb := rfl
@[simp] theorem jumpTo_phase : (jumpTo n s).phase = s.phase := rfl
@[simp] theorem jumpTo_wait : (jumpTo n s).wait = .idle := rfl
@[simp] theorem jumpTo_ports : (jumpTo n s).ports = s.ports := rfl
@[simp] theorem jumpTo_host : (jumpTo n s).host = s.host := rfl
@[simp] theorem jumpTo_freeDraws : (jumpTo n s).freeDraws = s.freeDraws := rfl

end jumpTo

section setBase

variable (r : Word)

@[simp] theorem setBase_mem : (setBase r s).mem = s.mem := rfl
@[simp] theorem setBase_len : (setBase r s).len = s.len := rfl
@[simp] theorem setBase_ip : (setBase r s).ip = s.ip := rfl
@[simp] theorem setBase_rb : (setBase r s).rb = r := rfl
@[simp] theorem setBase_phase : (setBase r s).phase = s.phase := rfl
@[simp] theorem setBase_wait : (setBase r s).wait = s.wait := rfl
@[simp] theorem setBase_ports : (setBase r s).ports = s.ports := rfl
@[simp] theorem setBase_host : (setBase r s).host = s.host := rfl
@[simp] theorem setBase_freeDraws : (setBase r s).freeDraws = s.freeDraws := rfl

end setBase

section record

variable (e : PortEvent)

@[simp] theorem record_mem : (record e s).mem = s.mem := rfl
@[simp] theorem record_len : (record e s).len = s.len := rfl
@[simp] theorem record_ip : (record e s).ip = s.ip := rfl
@[simp] theorem record_rb : (record e s).rb = s.rb := rfl
@[simp] theorem record_phase : (record e s).phase = s.phase := rfl
@[simp] theorem record_wait : (record e s).wait = s.wait := rfl
@[simp] theorem record_ports : (record e s).ports = s.ports ++ [e] := rfl
@[simp] theorem record_host : (record e s).host = s.host := rfl
@[simp] theorem record_freeDraws : (record e s).freeDraws = s.freeDraws := rfl

end record

section haltEngine

@[simp] theorem haltEngine_mem : (haltEngine s).mem = s.mem := rfl
@[simp] theorem haltEngine_len : (haltEngine s).len = s.len := rfl
@[simp] theorem haltEngine_ip : (haltEngine s).ip = s.ip := rfl
@[simp] theorem haltEngine_rb : (haltEngine s).rb = s.rb := rfl
@[simp] theorem haltEngine_phase : (haltEngine s).phase = .halted := rfl
@[simp] theorem haltEngine_wait : (haltEngine s).wait = .idle := rfl
@[simp] theorem haltEngine_ports : (haltEngine s).ports = s.ports ++ [.endOfStream] := rfl
@[simp] theorem haltEngine_host : (haltEngine s).host = s.host := rfl
@[simp] theorem haltEngine_freeDraws : (haltEngine s).freeDraws = s.freeDraws := rfl

end haltEngine

section hold

variable (w : Wait)

@[simp] theorem hold_mem : (hold w s).mem = s.mem := rfl
@[simp] theorem hold_len : (hold w s).len = s.len := rfl
@[simp] theorem hold_ip : (hold w s).ip = s.ip := rfl
@[simp] theorem hold_rb : (hold w s).rb = s.rb := rfl
@[simp] theorem hold_phase : (hold w s).phase = s.phase := rfl
@[simp] theorem hold_wait : (hold w s).wait = w := rfl
@[simp] theorem hold_ports : (hold w s).ports = s.ports := rfl
@[simp] theorem hold_host : (hold w s).host = s.host := rfl
@[simp] theorem hold_freeDraws : (hold w s).freeDraws = s.freeDraws := rfl

end hold

section takeDraw

@[simp] theorem takeDraw_mem : (takeDraw s).mem = s.mem := by unfold takeDraw; split <;> rfl
@[simp] theorem takeDraw_len : (takeDraw s).len = s.len := by unfold takeDraw; split <;> rfl
@[simp] theorem takeDraw_ip : (takeDraw s).ip = s.ip := by unfold takeDraw; split <;> rfl
@[simp] theorem takeDraw_rb : (takeDraw s).rb = s.rb := by unfold takeDraw; split <;> rfl
@[simp] theorem takeDraw_phase : (takeDraw s).phase = s.phase := by unfold takeDraw; split <;> rfl
@[simp] theorem takeDraw_wait : (takeDraw s).wait = s.wait := by unfold takeDraw; split <;> rfl
@[simp] theorem takeDraw_ports : (takeDraw s).ports = s.ports := by unfold takeDraw; split <;> rfl
@[simp]
theorem takeDraw_host : (takeDraw s).host = s.host.tail := by unfold takeDraw; split <;> simp_all
@[simp]
theorem takeDraw_freeDraws : (takeDraw s).freeDraws = if s.host = [] then s.freeDraws + 1 else s.freeDraws := by unfold takeDraw; split <;> simp_all

end takeDraw

end Sys2Proof.Machine
end

