-- ==== Sys2Proof/Laws/Ops.lean ====
section
/-! SUPPORT. The spec lemmas of the shared operations of Machine/Ops.lean: the address check, the
memory controller's primitives, and the environment's draw. -/

namespace Sys2Proof.Machine

open Sys2Proof

/-! ### `Addr` (R27) -/

theorem addr_neg {x : Int} (h : x < 0) : addr x = .error .invalidAddressConversion := by
  simp [addr, h]

theorem addr_beyond {x : Int} (h : (Config.memLimit : Int) ≤ x) :
    addr x = .error .memoryBounds := by
  have : ¬ x < 0 := by have : (0 : Int) ≤ Config.memLimit := Int.natCast_nonneg _; omega
  simp [addr, this, h]

theorem addr_ok_iff {x : Int} {a : Nat} :
    addr x = .ok a ↔ 0 ≤ x ∧ x < (Config.memLimit : Int) ∧ a = x.toNat := by
  unfold addr
  split
  · next h => simp; omega
  · split
    · next h => simp; omega
    · next h0 h1 =>
      simp only [Except.ok.injEq]
      constructor
      · rintro rfl; exact ⟨by omega, by omega, rfl⟩
      · rintro ⟨-, -, rfl⟩; rfl

theorem addr_lt {x : Int} {a : Nat} (h : addr x = .ok a) : a < Config.memLimit := by
  have := addr_ok_iff.1 h; omega

theorem addr_natCast (a : Nat) :
    addr (a : Int) = if a < Config.memLimit then .ok a else .error .memoryBounds := by
  split
  · next h => exact addr_ok_iff.2 ⟨by omega, by omega, by simp⟩
  · next h => exact addr_beyond (by omega)

/-- The only faults of the address check. -/
theorem addr_error {x : Int} {k : FaultKind} (h : addr x = .error k) :
    (x < 0 ∧ k = .invalidAddressConversion) ∨
      ((Config.memLimit : Int) ≤ x ∧ k = .memoryBounds) := by
  unfold addr at h
  split at h
  · next hx => exact .inl ⟨hx, by simpa using h.symm⟩
  · split at h
    · next hx => exact .inr ⟨hx, by simpa using h.symm⟩
    · simp at h

/-! ### Reads see memory and `len` only -/

theorem memRead_congr {s t : State} (hm : s.mem = t.mem) (hl : s.len = t.len) (a : Nat) :
    memRead a s = memRead a t := by simp [memRead, hm, hl]

@[simp] theorem memRead_takeFault (a : Nat) (k : FaultKind) (s : State) :
    memRead a (takeFault k s) = memRead a s := rfl
@[simp] theorem memRead_advance (a n : Nat) (s : State) :
    memRead a (advance n s) = memRead a s := rfl
@[simp] theorem memRead_jumpTo (a n : Nat) (s : State) :
    memRead a (jumpTo n s) = memRead a s := rfl
@[simp] theorem memRead_setBase (a : Nat) (r : Word) (s : State) :
    memRead a (setBase r s) = memRead a s := rfl
@[simp] theorem memRead_record (a : Nat) (e : PortEvent) (s : State) :
    memRead a (record e s) = memRead a s := rfl
@[simp] theorem memRead_haltEngine (a : Nat) (s : State) :
    memRead a (haltEngine s) = memRead a s := rfl
@[simp] theorem memRead_hold (a : Nat) (w : Wait) (s : State) :
    memRead a (hold w s) = memRead a s := rfl
@[simp] theorem memRead_takeDraw (a : Nat) (s : State) :
    memRead a (takeDraw s) = memRead a s := memRead_congr (by simp) (by simp) a

theorem memRead_past_len {a : Nat} {s : State} (h : s.len ≤ a) : memRead a s = 0 := by
  simp [memRead, Nat.not_lt.2 h]

/-! ### `MemSlot` (R29, R30) -/

theorem memSlot_of_lt {a : Nat} {s : State} (h : a < s.len) : memSlot a s = s := by
  simp [memSlot, Nat.not_le.2 h]

theorem memSlot_len_eq_max (a : Nat) (s : State) : (memSlot a s).len = max s.len (a + 1) := by
  rw [memSlot_len]; split <;> omega

theorem lt_memSlot_len (a : Nat) (s : State) : a < (memSlot a s).len := by
  rw [memSlot_len_eq_max]; omega

theorem len_le_memSlot_len (a : Nat) (s : State) : s.len ≤ (memSlot a s).len := by
  rw [memSlot_len_eq_max]; omega

/-- A second `MemSlot` of the same address finds nothing to do. -/
theorem memSlot_again (a : Nat) (s : State) : memSlot a (memSlot a s) = memSlot a s :=
  memSlot_of_lt (lt_memSlot_len a s)

/-- No read can see a `MemSlot`. -/
theorem memRead_after_memSlot (x a : Nat) (s : State) : memRead x (memSlot a s) = memRead x s := by
  unfold memRead memSlot
  by_cases h : s.len ≤ a
  · simp only [h, if_true, Memory.read_zeroFill]
    by_cases h1 : x < s.len
    · simp [h1, show x < a + 1 by omega, Nat.not_le.2 h1]
    · by_cases h2 : x < a + 1
      · simp [h1, h2, show s.len ≤ x ∧ x ≤ a by omega, Memory.unlisted]
      · simp [h1, h2]
  · simp [h]

theorem wf_memSlot {s : State} (h : Memory.wf s.mem = true) (a : Nat) :
    Memory.wf (memSlot a s).mem = true := by
  rw [memSlot_mem]; split
  · exact Memory.wf_zeroFill h _ _
  · exact h

/-! ### `MemWrite` (R31), and a store after its `MemSlot` -/

theorem memRead_memWrite_same {s : State} (h : Memory.wf s.mem = true) {a : Nat}
    (ha : a < s.len) (v : Word) : memRead a (memWrite a v s) = v := by
  simp [memRead, ha, Memory.read_write_same h]

theorem memRead_memWrite_other (s : State) {a x : Nat} (hx : x ≠ a) (v : Word) :
    memRead x (memWrite a v s) = memRead x s := by
  simp [memRead, Memory.read_write_other s.mem v hx]

/-- Everything a program store does to what reads see. -/
theorem memRead_store {s : State} (h : Memory.wf s.mem = true) (d : Nat) (v : Word) (x : Nat) :
    memRead x (memWrite d v (memSlot d s)) = if x = d then v else memRead x s := by
  split
  · next hx =>
    subst hx
    exact memRead_memWrite_same (wf_memSlot h x) (lt_memSlot_len x s) v
  · next hx => rw [memRead_memWrite_other _ hx, memRead_after_memSlot]

theorem wf_memWrite {s : State} (h : Memory.wf s.mem = true) (a : Nat) (v : Word) :
    Memory.wf (memWrite a v s).mem = true := Memory.wf_write h a v

/-! ### The environment's draw (R61) -/

@[simp] theorem hostDraw_cons (s : State) (d : HostDraw) (ds : List HostDraw) :
    hostDraw { s with host := d :: ds } = d := rfl

theorem hostDraw_congr {s t : State} (hh : s.host = t.host) (hf : s.freeDraws = t.freeDraws) :
    hostDraw s = hostDraw t := by simp [hostDraw, hh, hf]

@[simp] theorem hostDraw_memSlot (a : Nat) (s : State) : hostDraw (memSlot a s) = hostDraw s :=
  hostDraw_congr (by simp) (by simp)

end Sys2Proof.Machine
end

