-- ==== Sys2Proof/Laws/Operands.lean ====
section
/-! SUPPORT. What resolution can answer (40_execution_cycle.md R65 to R67), and what it depends
on. -/

namespace Sys2Proof.Machine

open Sys2Proof

/-! ### Read parameters -/

theorem readParam_immediate (raw : Word) (s : State) : readParam .immediate raw s = .ok raw := rfl

theorem readParam_of_address {m : Mode} {raw : Word} {s : State} {x : Int} {a : Nat}
    (h : paramAddress m raw s.rb = some x) (ha : addr x = .ok a) :
    readParam m raw s = .ok (memRead a s) := by simp [readParam, h, ha]

theorem readParam_of_fault {m : Mode} {raw : Word} {s : State} {x : Int} {k : FaultKind}
    (h : paramAddress m raw s.rb = some x) (ha : addr x = .error k) :
    readParam m raw s = .error k := by simp [readParam, h, ha]

/-- A read parameter depends on the words memory reads as and on the base. -/
theorem readParam_congr {s t : State} (hw : ∀ a, memRead a s = memRead a t) (hb : s.rb = t.rb)
    (m : Mode) (raw : Word) : readParam m raw s = readParam m raw t := by
  simp only [readParam, hb, hw]

/-! ### Write parameters -/

theorem writeTarget_lt {m : Mode} {raw : Word} {s : State} {d : Nat}
    (h : writeTarget m raw s = .ok d) : d < Config.memLimit := by
  unfold writeTarget at h
  split at h
  · simp at h
  · exact addr_lt h

theorem writeTarget_congr {s t : State} (hb : s.rb = t.rb) (m : Mode) (raw : Word) :
    writeTarget m raw s = writeTarget m raw t := by simp only [writeTarget, hb]

theorem writeParam_ok_iff {m : Mode} {raw : Word} {s t : State} {d : Nat} :
    writeParam m raw s = .ok (d, t) ↔ writeTarget m raw s = .ok d ∧ t = memSlot d s := by
  unfold writeParam
  split
  · next k h => simp [h]
  · next a h =>
    simp only [h, Except.ok.injEq, Prod.mk.injEq]
    constructor
    · rintro ⟨rfl, rfl⟩; exact ⟨rfl, rfl⟩
    · rintro ⟨rfl, rfl⟩; exact ⟨rfl, rfl⟩

theorem writeParam_error_iff {m : Mode} {raw : Word} {s : State} {k : FaultKind} :
    writeParam m raw s = .error k ↔ writeTarget m raw s = .error k := by
  unfold writeParam; split <;> simp [*]

/-! ### The shapes -/

theorem resolveRR_ok_iff {m : Modes} {p0 p1 : Word} {s : State} {a b : Word} :
    resolveRR m p0 p1 s = .ok (a, b) ↔
      readParam m.m0 p0 s = .ok a ∧ readParam m.m1 p1 s = .ok b := by
  unfold resolveRR
  split
  · next k h => simp [h]
  · next x h =>
    split
    · next k h' => simp [h']
    · next y h' => simp [h, h']

theorem resolveRR_error_iff {m : Modes} {p0 p1 : Word} {s : State} {k : FaultKind} :
    resolveRR m p0 p1 s = .error k ↔
      readParam m.m0 p0 s = .error k ∨
        ∃ a, readParam m.m0 p0 s = .ok a ∧ readParam m.m1 p1 s = .error k := by
  unfold resolveRR
  split
  · next j h => simp [h]
  · next x h =>
    split
    · next j h' => simp [h, h']
    · next y h' => simp [h, h']

theorem resolveRRW_ok_iff {m : Modes} {p0 p1 p2 : Word} {s : State} {o : Resolved} :
    resolveRRW m p0 p1 p2 s = .ok o ↔
      readParam m.m0 p0 s = .ok o.a ∧ readParam m.m1 p1 s = .ok o.b ∧
        writeTarget m.m2 p2 s = .ok o.d ∧ o.after = memSlot o.d s := by
  obtain ⟨a, b, d, t⟩ := o
  unfold resolveRRW
  split
  · next k h =>
    simp only [reduceCtorEq, false_iff]
    rintro ⟨ha, hb, -⟩
    rw [resolveRR_ok_iff.2 ⟨ha, hb⟩] at h
    cases h
  · next x y h =>
    obtain ⟨hx, hy⟩ := resolveRR_ok_iff.1 h
    split
    · next k h' =>
      have := writeParam_error_iff.1 h'
      simp [this]
    · next e u h' =>
      obtain ⟨he, rfl⟩ := writeParam_ok_iff.1 h'
      simp only [Except.ok.injEq, Resolved.mk.injEq, hx, hy, he]
      constructor
      · rintro ⟨rfl, rfl, rfl, rfl⟩; exact ⟨rfl, rfl, rfl, rfl⟩
      · rintro ⟨rfl, rfl, rfl, rfl⟩; exact ⟨rfl, rfl, rfl, rfl⟩

theorem resolveRRW_error_iff {m : Modes} {p0 p1 p2 : Word} {s : State} {k : FaultKind} :
    resolveRRW m p0 p1 p2 s = .error k ↔
      resolveRR m p0 p1 s = .error k ∨
        ∃ a b, resolveRR m p0 p1 s = .ok (a, b) ∧ writeTarget m.m2 p2 s = .error k := by
  unfold resolveRRW
  split
  · next j h => simp [h]
  · next x y h =>
    split
    · next j h' => simp [h, writeParam_error_iff.1 h']
    · next e u h' => simp [h, (writeParam_ok_iff.1 h').1]

end Sys2Proof.Machine
end

