-- ==== Sys2Proof/Laws/Exec.lean ====
section
/-! SUPPORT. Everything an instruction can do, said once for each shared shape, and that `exec`
always answers a next state. -/

namespace Sys2Proof.Machine

open Sys2Proof

/-- Add, Multiply, LessThan, Equals: a fault of resolution, a fault of the handler, or one
store. -/
theorem threeOperand_cases (f : Word → Word → Except FaultKind Word) (m : Modes)
    (p0 p1 p2 : Word) (s : State) :
    (∃ k, resolveRRW m p0 p1 p2 s = .error k ∧ threeOperand f m p0 p1 p2 s = takeFault k s) ∨
    (∃ a b d k, readParam m.m0 p0 s = .ok a ∧ readParam m.m1 p1 s = .ok b ∧
      writeTarget m.m2 p2 s = .ok d ∧ f a b = .error k ∧
      threeOperand f m p0 p1 p2 s = takeFault k (memSlot d s)) ∨
    (∃ a b d r, readParam m.m0 p0 s = .ok a ∧ readParam m.m1 p1 s = .ok b ∧
      writeTarget m.m2 p2 s = .ok d ∧ f a b = .ok r ∧
      threeOperand f m p0 p1 p2 s = advance 4 (memWrite d r (memSlot d s))) := by
  cases h : resolveRRW m p0 p1 p2 s with
  | error k => exact .inl ⟨k, rfl, by simp [threeOperand, h]⟩
  | ok o =>
    obtain ⟨ha, hb, hd, hs⟩ := resolveRRW_ok_iff.1 h
    cases hf : f o.a o.b with
    | error k => exact .inr (.inl ⟨o.a, o.b, o.d, k, ha, hb, hd, hf, by simp [threeOperand, h, hf, hs]⟩)
    | ok r => exact .inr (.inr ⟨o.a, o.b, o.d, r, ha, hb, hd, hf, by simp [threeOperand, h, hf, hs]⟩)

theorem threeOperand_stores {f : Word → Word → Except FaultKind Word} {m : Modes}
    {p0 p1 p2 : Word} {s : State} {a b r : Word} {d : Nat} (ha : readParam m.m0 p0 s = .ok a)
    (hb : readParam m.m1 p1 s = .ok b) (hd : writeTarget m.m2 p2 s = .ok d)
    (hf : f a b = .ok r) :
    threeOperand f m p0 p1 p2 s = advance 4 (memWrite d r (memSlot d s)) := by
  have h : resolveRRW m p0 p1 p2 s = .ok ⟨a, b, d, memSlot d s⟩ :=
    resolveRRW_ok_iff.2 ⟨ha, hb, hd, rfl⟩
  simp [threeOperand, h, hf]

theorem threeOperand_handler_fault {f : Word → Word → Except FaultKind Word} {m : Modes}
    {p0 p1 p2 : Word} {s : State} {a b : Word} {d : Nat} {k : FaultKind}
    (ha : readParam m.m0 p0 s = .ok a) (hb : readParam m.m1 p1 s = .ok b)
    (hd : writeTarget m.m2 p2 s = .ok d) (hf : f a b = .error k) :
    threeOperand f m p0 p1 p2 s = takeFault k (memSlot d s) := by
  have h : resolveRRW m p0 p1 p2 s = .ok ⟨a, b, d, memSlot d s⟩ :=
    resolveRRW_ok_iff.2 ⟨ha, hb, hd, rfl⟩
  simp [threeOperand, h, hf]

theorem threeOperand_resolution_fault {f : Word → Word → Except FaultKind Word} {m : Modes}
    {p0 p1 p2 : Word} {s : State} {k : FaultKind} (h : resolveRRW m p0 p1 p2 s = .error k) :
    threeOperand f m p0 p1 p2 s = takeFault k s := by
  simp [threeOperand, h]

/-- JumpIfTrue, JumpIfFalse: a fault in the state as it was, a jump, or the advance. -/
theorem conditionalJump_cases (taken : Word → Bool) (m : Modes) (p0 p1 : Word) (s : State) :
    (∃ k, conditionalJump taken m p0 p1 s = takeFault k s) ∨
    (∃ t g, readParam m.m0 p0 s = .ok t ∧ readParam m.m1 p1 s = .ok g ∧ taken t = true ∧
      0 ≤ g.toInt ∧ conditionalJump taken m p0 p1 s = jumpTo g.toInt.toNat s) ∨
    (∃ t g, readParam m.m0 p0 s = .ok t ∧ readParam m.m1 p1 s = .ok g ∧ taken t = false ∧
      conditionalJump taken m p0 p1 s = advance 3 s) := by
  unfold conditionalJump
  split
  · next k h => exact .inl ⟨k, rfl⟩
  · next t g h =>
    obtain ⟨ht, hg⟩ := resolveRR_ok_iff.1 h
    split
    · next hc =>
      split
      · exact .inl ⟨_, rfl⟩
      · next hn => exact .inr (.inl ⟨t, g, ht, hg, hc, by omega, rfl⟩)
    · next hc => exact .inr (.inr ⟨t, g, ht, hg, by simpa using hc, rfl⟩)

/-- RelativeBaseOffset: a fault in the state as it was, or the new base and the advance. -/
theorem offsetBase_cases (mode : OverflowMode) (m : Modes) (p0 : Word) (s : State) :
    (∃ k, offsetBase mode m p0 s = takeFault k s) ∨
    (∃ v r, readParam m.m0 p0 s = .ok v ∧ sumResult mode s.rb v = .ok r ∧
      offsetBase mode m p0 s = advance 2 (setBase r s)) := by
  unfold offsetBase
  split
  · next k h => exact .inl ⟨k, rfl⟩
  · next v h =>
    split
    · next k h' => exact .inl ⟨k, rfl⟩
    · next r h' => exact .inr ⟨v, r, h, h', rfl⟩

/-- Input's wait: a transfer, the timeout, or a hold. -/
theorem inputWait_cases (d : Nat) (t : State) :
    (∃ v, (hostDraw t).offered = some v ∧
      inputWait d t = advance 2 (memWrite d v (record (.taken v) (takeDraw t)))) ∨
    ((hostDraw t).offered = none ∧ (hostDraw t).timedOut = true ∧
      inputWait d t = takeFault .inputTimeout (takeDraw t)) ∨
    ((hostDraw t).offered = none ∧ (hostDraw t).timedOut = false ∧
      inputWait d t = hold .input (takeDraw t)) := by
  cases h : (hostDraw t).offered with
  | some v => exact .inl ⟨v, rfl, by simp [inputWait, h]⟩
  | none =>
    cases h' : (hostDraw t).timedOut with
    | true => exact .inr (.inl ⟨rfl, rfl, by simp [inputWait, h, h']⟩)
    | false => exact .inr (.inr ⟨rfl, rfl, by simp [inputWait, h, h']⟩)

/-- Output's wait: a transfer, the timeout, or a hold that offers the word. -/
theorem outputWait_cases (v : Word) (s : State) :
    ((hostDraw s).outReady = true ∧
      outputWait v s = advance 2 (record (.delivered v) (takeDraw s))) ∨
    ((hostDraw s).outReady = false ∧ (hostDraw s).timedOut = true ∧
      outputWait v s = takeFault .outputTimeout (takeDraw s)) ∨
    ((hostDraw s).outReady = false ∧ (hostDraw s).timedOut = false ∧
      outputWait v s = hold (.output v) (takeDraw s)) := by
  cases h : (hostDraw s).outReady <;> cases h' : (hostDraw s).timedOut <;>
    simp [outputWait, h, h']

/-- The state `exec` answers, as a function. -/
def execState (i : Instr) (s : State) : State :=
  match exec i s with
  | .next t => t
  | .fault r => nomatch r
  | .refused _ => s

/-- Every instruction answers a next state: a fault of the engine is one (R101). -/
theorem exec_eq_next (i : Instr) (s : State) : exec i s = .next (execState i s) := by
  cases i <;> rfl

@[simp] theorem execState_add (m : Modes) (p0 p1 p2 : Word) (s : State) :
    execState (.add m p0 p1 p2) s =
      threeOperand (sumResult Config.overflowMode) m p0 p1 p2 s := rfl
@[simp] theorem execState_mul (m : Modes) (p0 p1 p2 : Word) (s : State) :
    execState (.mul m p0 p1 p2) s =
      threeOperand (productResult Config.overflowMode) m p0 p1 p2 s := rfl
@[simp] theorem execState_lt (m : Modes) (p0 p1 p2 : Word) (s : State) :
    execState (.lt m p0 p1 p2) s =
      threeOperand (fun a b => .ok (lessResult a b)) m p0 p1 p2 s := rfl
@[simp] theorem execState_eq (m : Modes) (p0 p1 p2 : Word) (s : State) :
    execState (.eq m p0 p1 p2) s =
      threeOperand (fun a b => .ok (equalResult a b)) m p0 p1 p2 s := rfl
@[simp] theorem execState_jt (m : Modes) (p0 p1 : Word) (s : State) :
    execState (.jt m p0 p1) s = conditionalJump (fun t => truth t) m p0 p1 s := rfl
@[simp] theorem execState_jf (m : Modes) (p0 p1 : Word) (s : State) :
    execState (.jf m p0 p1) s = conditionalJump (fun t => !truth t) m p0 p1 s := rfl
@[simp] theorem execState_arb (m : Modes) (p0 : Word) (s : State) :
    execState (.arb m p0) s = offsetBase Config.overflowMode m p0 s := rfl
@[simp] theorem execState_halt (m : Modes) (s : State) :
    execState (.halt m) s = haltEngine s := rfl

theorem execState_input_fault {m : Modes} {p0 : Word} {s : State} {k : FaultKind}
    (h : writeTarget m.m0 p0 s = .error k) : execState (.input m p0) s = takeFault k s := by
  have := writeParam_error_iff.2 h
  simp [execState, exec, execInput, this]

theorem execState_input_wait {m : Modes} {p0 : Word} {s : State} {d : Nat}
    (h : writeTarget m.m0 p0 s = .ok d) :
    execState (.input m p0) s = inputWait d (memSlot d s) := by
  have := writeParam_ok_iff.2 ⟨h, rfl⟩
  simp [execState, exec, execInput, this]

theorem execState_output_fault {m : Modes} {p0 : Word} {s : State} {k : FaultKind}
    (h : readParam m.m0 p0 s = .error k) : execState (.output m p0) s = takeFault k s := by
  simp [execState, exec, execOutput, h]

theorem execState_output_wait {m : Modes} {p0 : Word} {s : State} {v : Word}
    (h : readParam m.m0 p0 s = .ok v) : execState (.output m p0) s = outputWait v s := by
  simp [execState, exec, execOutput, h]

/-! ### Results (40_execution_cycle.md R69) -/

theorem isWord_iff {r : Int} : isWord r = true ↔ Config.wmin ≤ r ∧ r ≤ Config.wmax := by
  simp [isWord]

theorem wmin_eq : Config.wmin = -9223372036854775808 := by decide

theorem wmax_eq : Config.wmax = 9223372036854775807 := by decide

theorem isWord_toInt (w : Word) : isWord w.toInt = true := by
  have h1 := w.toInt_lt
  have h2 := w.le_toInt
  rw [isWord_iff, wmin_eq, wmax_eq]
  omega

theorem ofInteger_toInt (w : Word) : Word.ofInteger w.toInt = w := BitVec.ofInt_toInt

theorem toInt_ofInteger {r : Int} (h : isWord r = true) : (Word.ofInteger r).toInt = r := by
  rw [isWord_iff, wmin_eq, wmax_eq] at h
  rw [Word.ofInteger, BitVec.toInt_ofInt, Int.bmod_def]
  omega

theorem narrow_word {mode : OverflowMode} {r : Int} (h : isWord r = true) :
    narrow mode r = .ok (Word.ofInteger r) := by simp [narrow, h]

theorem narrow_fault {r : Int} (h : isWord r = false) :
    narrow .fault r = .error .arithmeticOverflow := by simp [narrow, h]

theorem narrow_wrap {r : Int} (h : isWord r = false) :
    narrow .wrap r = .ok (Word.ofInteger (wrap r)) := by simp [narrow, h]

end Sys2Proof.Machine
end

