-- ==== Sys2Proof/Laws/Assembly.lean ====
section
/-! SUPPORT. What the assembler's operations answer (30_encoding.md R57), each said once. -/

namespace Sys2Proof.Machine

open Sys2Proof

/-- The words of integers are the words with those values, in order. -/
theorem asmWords_eq_some_iff {vs : List (Option Int)} {ws : List Word} :
    asmWords vs = some ws ↔ vs = ws.map fun w => some w.toInt := by
  induction vs generalizing ws with
  | nil => cases ws <;> simp [asmWords]
  | cons v vs ih =>
    cases v with
    | none => cases ws <;> simp [asmWords]
    | some v =>
      rw [asmWords]
      split
      · next hw =>
        cases ws with
        | nil => simp
        | cons w ws =>
          simp only [Option.map_eq_some_iff, List.cons.injEq, List.map_cons, Option.some.injEq]
          constructor
          · rintro ⟨ws', h, rfl, rfl⟩
            exact ⟨(toInt_ofInteger hw).symm, ih.1 h⟩
          · rintro ⟨rfl, h⟩
            exact ⟨ws, ih.2 h, ofInteger_toInt w, rfl⟩
      · next hw =>
        cases ws with
        | nil => simp
        | cons w ws =>
          simp only [List.map_cons, List.cons.injEq, Option.some.injEq, reduceCtorEq, false_iff]
          rintro ⟨rfl, -⟩
          exact hw (isWord_toInt w)

/-- When an instruction line is accepted, and what it is. -/
theorem asmInstr_eq_some_iff {labels : List (Label × Nat)} {op : Opcode} {os : List AsmOperand}
    {i : Instr} :
    asmInstr labels op os = some i ↔
      os.length = op.arity ∧ ∃ ws : List Word,
        (os.map fun o => o.integer labels) = (ws.map fun w => some w.toInt) ∧
        (build op (asmModes os) ws).wellFormed = true ∧ i = build op (asmModes os) ws := by
  unfold asmInstr
  split
  · next hl =>
    split
    · next h =>
      simp only [reduceCtorEq, false_iff]
      rintro ⟨-, ws, hw, -⟩
      rw [asmWords_eq_some_iff.2 hw] at h
      cases h
    · next ws h =>
      have hws := asmWords_eq_some_iff.1 h
      constructor
      · intro hi
        split at hi
        · next hwf => cases hi; exact ⟨hl, ws, hws, hwf, rfl⟩
        · cases hi
      · rintro ⟨-, ws', hw', hwf, rfl⟩
        have : ws' = ws := by
          have := asmWords_eq_some_iff.2 hw'
          rw [h] at this
          cases this; rfl
        subst this
        rw [if_pos hwf]
  · next hl => exact ⟨fun h => (by cases h), fun h => absurd h.1 hl⟩

end Sys2Proof.Machine
end

