-- ==== Sys2Proof/Laws/Decode.lean ====
section
/-! SUPPORT. The laws of the decimal fields (30_encoding.md R45, R47, R49), of the decoder's
answer, and of the shape of an instruction. -/

namespace Sys2Proof

theorem opcodeOf_code (op : Opcode) : opcodeOf op.code = some op := by cases op <;> rfl

theorem code_of_opcodeOf {n : Nat} {op : Opcode} (h : opcodeOf n = some op) : op.code = n := by
  unfold opcodeOf at h
  split at h <;> simp at h <;> subst h <;> rfl

theorem modeOf_digit (m : Mode) : modeOf m.digit = some m := by cases m <;> rfl

theorem digit_of_modeOf {n : Nat} {m : Mode} (h : modeOf n = some m) : m.digit = n := by
  unfold modeOf at h
  split at h <;> simp at h <;> subst h <;> rfl

theorem Mode.digit_le (m : Mode) : m.digit ≤ 2 := by cases m <;> decide

theorem Opcode.code_lt (op : Opcode) : op.code < 100 := by cases op <;> decide

theorem Opcode.arity_le (op : Opcode) : op.arity ≤ Config.maxArity := by cases op <;> decide

/-- The mode tags are read where, and only where, all four digits are mode digits and no digit
is left. -/
theorem modesOf_ok_iff {n : Nat} {m : Modes} :
    modesOf n = .ok m ↔
      m.m0.digit = digit n 2 ∧ m.m1.digit = digit n 3 ∧ m.m2.digit = digit n 4 ∧
        m.m3.digit = digit n 5 ∧ n / 10 ^ 6 = 0 := by
  obtain ⟨a, b, c, d⟩ := m
  constructor
  · intro h
    unfold modesOf at h
    split at h
    · simp at h
    · next h0 =>
      split at h
      · simp at h
      · next h1 =>
        split at h
        · simp at h
        · next h2 =>
          split at h
          · simp at h
          · next h3 =>
            split at h
            · next h4 =>
              simp only [Except.ok.injEq, Modes.mk.injEq] at h
              obtain ⟨rfl, rfl, rfl, rfl⟩ := h
              exact ⟨digit_of_modeOf h0, digit_of_modeOf h1, digit_of_modeOf h2,
                digit_of_modeOf h3, h4⟩
            · simp at h
  · rintro ⟨h0, h1, h2, h3, h4⟩
    simp only at h0 h1 h2 h3
    simp only [modesOf, ← h0, ← h1, ← h2, ← h3, modeOf_digit, if_pos h4]

/-- What a decoded instruction word is. -/
theorem decodeHead_ok_iff {w : Word} {op : Opcode} {m : Modes} :
    decodeHead w = .ok (op, m) ↔
      0 ≤ w.toInt ∧ op.code = w.toNat % 100 ∧ modesOf w.toNat = .ok m := by
  constructor
  · intro h
    unfold decodeHead at h
    split at h
    · simp at h
    · next h0 =>
      split at h
      · simp at h
      · next h1 =>
        split at h
        · simp at h
        · next h2 =>
          simp only [Except.ok.injEq, Prod.mk.injEq] at h
          obtain ⟨rfl, rfl⟩ := h
          exact ⟨by omega, code_of_opcodeOf h1, h2⟩
  · rintro ⟨h0, h1, h2⟩
    have hn : ¬ w.toInt < 0 := by omega
    simp [decodeHead, hn, ← h1, opcodeOf_code, h2]

theorem headNumber_lt (op : Opcode) (m : Modes) : headNumber op m < 10 ^ 6 := by
  have := op.code_lt
  have := m.m0.digit_le
  have := m.m1.digit_le
  have := m.m2.digit_le
  have := m.m3.digit_le
  unfold headNumber
  omega

theorem Instr.raws_length (i : Instr) : i.raws.length = i.opcode.arity := by cases i <;> rfl

theorem Instr.one_le_length (i : Instr) : 1 ≤ i.length := Nat.le_add_right 1 _

theorem Instr.length_le (i : Instr) : i.length ≤ 1 + Config.maxArity :=
  Nat.add_le_add_left (Opcode.arity_le _) 1

theorem build_self (i : Instr) (rest : List Word) :
    build i.opcode i.modes (i.raws ++ rest) = i := by cases i <;> rfl

theorem Instr.modes_build (op : Opcode) (m : Modes) (ws : List Word) :
    (build op m ws).modes = m := by cases op <;> rfl

theorem Instr.opcode_build (op : Opcode) (m : Modes) (ws : List Word) :
    (build op m ws).opcode = op := by cases op <;> rfl

end Sys2Proof
end

