-- ==== Sys2Proof/Laws/Step.lean ====
section
/-! SUPPORT. Fetch, and everything one step can do (40_execution_cycle.md R60 to R64). -/

namespace Sys2Proof.Machine

open Sys2Proof

theorem fetchWord_of_lt {a : Nat} {s : State} (h : a < Config.memLimit) :
    fetchWord a s = .ok (memRead a s) := by simp [fetchWord, addr_natCast, h]

theorem fetchWord_beyond {a : Nat} {s : State} (h : Config.memLimit ≤ a) :
    fetchWord a s = .error .memoryBounds := by simp [fetchWord, addr_natCast, Nat.not_lt.2 h]

theorem fetchWord_congr {s t : State} (hw : ∀ a, memRead a s = memRead a t) (a : Nat) :
    fetchWord a s = fetchWord a t := by
  simp only [fetchWord, hw]

theorem fetchRaws_congr {s t : State} (hw : ∀ a, memRead a s = memRead a t) (a n : Nat) :
    fetchRaws s a n = fetchRaws t a n := by
  induction n generalizing a with
  | zero => rfl
  | succ n ih => simp only [fetchRaws, fetchWord_congr hw, ih]

/-- What is fetched depends on the words memory reads as and on `ip`. -/
theorem fetchInstr_congr {s t : State} (hw : ∀ a, memRead a s = memRead a t) (hi : s.ip = t.ip) :
    fetchInstr s = fetchInstr t := by
  simp only [fetchInstr, fetchWord_congr hw, fetchRaws_congr hw, hi]

/-- The raw parameter words, where all of them lie below the limit. -/
theorem fetchRaws_of_le {s : State} {a n : Nat} (h : a + n ≤ Config.memLimit) :
    fetchRaws s a n = .ok ((List.range n).map fun k => memRead (a + k) s) := by
  induction n generalizing a with
  | zero => rfl
  | succ n ih =>
    rw [fetchRaws, fetchWord_of_lt (by omega)]
    simp only
    rw [ih (by omega)]
    simp only [List.range_succ_eq_map, List.map_cons, List.map_map, Nat.add_zero]
    congr 2
    refine List.map_congr_left fun k _ => ?_
    simp only [Function.comp]
    congr 1
    omega

/-- A raw parameter word beyond the limit is a `MemoryBounds` fault (R64). -/
theorem fetchRaws_beyond {s : State} {a n : Nat} (h : Config.memLimit < a + n)
    (ha : a ≤ Config.memLimit) : fetchRaws s a n = .error .memoryBounds := by
  induction n generalizing a with
  | zero => omega
  | succ n ih =>
    by_cases ha' : a < Config.memLimit
    · rw [fetchRaws, fetchWord_of_lt ha']
      simp only
      rw [ih (by omega) (by omega)]
    · rw [fetchRaws, fetchWord_beyond (by omega)]

theorem build_opcode (op : Opcode) (m : Modes) (ws : List Word) : (build op m ws).opcode = op := by
  cases op <;> rfl

theorem build_modes (op : Opcode) (m : Modes) (ws : List Word) : (build op m ws).modes = m := by
  cases op <;> rfl

/-- A fetched instruction lies below the limit, whole. -/
theorem fetchInstr_ok {s : State} {i : Instr} (h : fetchInstr s = .ok i) :
    s.ip + i.length ≤ Config.memLimit := by
  unfold fetchInstr at h
  by_cases h0 : s.ip < Config.memLimit
  · rw [fetchWord_of_lt h0] at h
    simp only at h
    split at h
    · simp at h
    · next op m hd =>
      by_cases h1 : s.ip + 1 + op.arity ≤ Config.memLimit
      · rw [fetchRaws_of_le h1] at h
        simp only [Except.ok.injEq] at h
        subst h
        simp only [Instr.length, build_opcode]
        omega
      · rw [fetchRaws_beyond (by omega) (by omega)] at h
        simp at h
  · rw [fetchWord_beyond (by omega)] at h
    simp at h

theorem step_of_not_running {s : State} (h : s.phase ≠ .running) : step s = .next s := by
  unfold step cycle
  split <;> first | rfl | (next h' => exact absurd h' h)

theorem step_of_fetch_fault {s : State} {k : FaultKind} (h : s.phase = .running)
    (hf : fetchInstr s = .error k) : step s = .next (takeFault k s) := by
  simp [step, cycle, h, hf]

theorem step_of_fetch {s : State} {i : Instr} (h : s.phase = .running)
    (hf : fetchInstr s = .ok i) : step s = exec i s := by
  simp [step, cycle, h, hf]

/-- Everything a step can do. -/
theorem step_cases {s t : State} (h : step s = .next t) :
    (s.phase ≠ .running ∧ t = s) ∨
    (s.phase = .running ∧ ∃ k, fetchInstr s = .error k ∧ t = takeFault k s) ∨
    (s.phase = .running ∧ ∃ i, fetchInstr s = .ok i ∧ t = execState i s) := by
  by_cases hp : s.phase = .running
  · cases hf : fetchInstr s with
    | error k =>
      rw [step_of_fetch_fault hp hf] at h
      cases h
      exact .inr (.inl ⟨hp, k, rfl, rfl⟩)
    | ok i =>
      rw [step_of_fetch hp hf, exec_eq_next] at h
      cases h
      exact .inr (.inr ⟨hp, i, rfl, rfl⟩)
  · rw [step_of_not_running hp] at h
    cases h
    exact .inl ⟨hp, rfl⟩

end Sys2Proof.Machine
end

