-- ==== Sys2Proof/Laws/Invariant.lean ====
section
/-! SUPPORT. Each shared operation keeps `State.Inv`, where it is used. -/

namespace Sys2Proof.Machine

open Sys2Proof

/-- Under the invariant a read is a read of the store: nothing is listed past `len`. -/
theorem State.Inv.memRead_eq {s : State} (h : s.Inv) (a : Nat) :
    memRead a s = Memory.read s.mem a := by
  unfold memRead
  split
  · rfl
  · next ha =>
    refine (Memory.read_of_not_listed fun c hc e => ?_).symm
    have := h.zeroPastLen c hc
    omega

/-- Under the invariant `MemSlot` changes `len` alone (R21, R29). -/
theorem State.Inv.memSlot_mem_eq {s : State} (h : s.Inv) (a : Nat) :
    (memSlot a s).mem = s.mem := by
  rw [memSlot_mem]
  split
  · exact Memory.zeroFill_of_not_listed h.zeroPastLen
  · rfl

theorem State.Inv.memSlot {s : State} (h : s.Inv) {a : Nat} (ha : a < Config.memLimit) :
    (memSlot a s).Inv where
  memCanonical := by rw [h.memSlot_mem_eq]; exact h.memCanonical
  zeroPastLen := by
    rw [h.memSlot_mem_eq]
    exact fun c hc => Nat.lt_of_lt_of_le (h.zeroPastLen c hc) (len_le_memSlot_len a s)
  lenBound := by
    have := h.lenBound
    rw [memSlot_len_eq_max]; omega
  ipRange := by simpa using h.ipRange
  waitRunning := by simpa using h.waitRunning
  eosNotBefore := by simpa using h.eosNotBefore
  eosOnceLast := by simpa using h.eosOnceLast

theorem State.Inv.memWrite {s : State} (h : s.Inv) {a : Nat} (ha : a < s.len) (v : Word) :
    (memWrite a v s).Inv where
  memCanonical := wf_memWrite h.memCanonical a v
  zeroPastLen := fun c hc => by
    rcases Memory.mem_write hc with e | hc
    · simpa [e] using ha
    · exact h.zeroPastLen c hc
  lenBound := h.lenBound
  ipRange := h.ipRange
  waitRunning := h.waitRunning
  eosNotBefore := h.eosNotBefore
  eosOnceLast := h.eosOnceLast

theorem State.Inv.takeFault {s : State} (h : s.Inv) (hr : s.phase = .running) (k : FaultKind) :
    (takeFault k s).Inv where
  memCanonical := h.memCanonical
  zeroPastLen := h.zeroPastLen
  lenBound := h.lenBound
  ipRange := h.ipRange
  waitRunning := fun hw => absurd rfl hw
  eosNotBefore := fun _ => h.eosNotBefore (by simp [hr])
  eosOnceLast := fun hp => by simp at hp

theorem State.Inv.advance {s : State} (h : s.Inv) {n : Nat}
    (hn : ((s.ip + n : Nat) : Int) ≤ Config.wmax) : (advance n s).Inv where
  memCanonical := h.memCanonical
  zeroPastLen := h.zeroPastLen
  lenBound := h.lenBound
  ipRange := hn
  waitRunning := fun hw => absurd rfl hw
  eosNotBefore := h.eosNotBefore
  eosOnceLast := h.eosOnceLast

theorem State.Inv.jumpTo {s : State} (h : s.Inv) {n : Nat} (hn : (n : Int) ≤ Config.wmax) :
    (jumpTo n s).Inv where
  memCanonical := h.memCanonical
  zeroPastLen := h.zeroPastLen
  lenBound := h.lenBound
  ipRange := hn
  waitRunning := fun hw => absurd rfl hw
  eosNotBefore := h.eosNotBefore
  eosOnceLast := h.eosOnceLast

theorem State.Inv.setBase {s : State} (h : s.Inv) (r : Word) : (setBase r s).Inv :=
  ⟨h.memCanonical, h.zeroPastLen, h.lenBound, h.ipRange, h.waitRunning, h.eosNotBefore,
    h.eosOnceLast⟩

theorem State.Inv.takeDraw {s : State} (h : s.Inv) : (takeDraw s).Inv where
  memCanonical := by simpa using h.memCanonical
  zeroPastLen := by simpa using h.zeroPastLen
  lenBound := by simpa using h.lenBound
  ipRange := by simpa using h.ipRange
  waitRunning := by simpa using h.waitRunning
  eosNotBefore := by simpa using h.eosNotBefore
  eosOnceLast := by simpa using h.eosOnceLast

theorem State.Inv.hold {s : State} (h : s.Inv) (hr : s.phase = .running) (w : Wait) :
    (hold w s).Inv :=
  ⟨h.memCanonical, h.zeroPastLen, h.lenBound, h.ipRange, fun _ => hr, h.eosNotBefore,
    h.eosOnceLast⟩

/-- A transfer of a word, before Halt. -/
theorem State.Inv.record {s : State} (h : s.Inv) (hr : s.phase = .running) {e : PortEvent}
    (he : e ≠ .endOfStream) : (record e s).Inv where
  memCanonical := h.memCanonical
  zeroPastLen := h.zeroPastLen
  lenBound := h.lenBound
  ipRange := h.ipRange
  waitRunning := h.waitRunning
  eosNotBefore := fun hp => by
    have := h.eosNotBefore hp
    simp only [record_ports, List.mem_append, List.mem_singleton, not_or]
    exact ⟨this, fun x => he x.symm⟩
  eosOnceLast := fun hp => by simp [hr] at hp

theorem State.Inv.haltEngine {s : State} (h : s.Inv) (hr : s.phase = .running) :
    (haltEngine s).Inv where
  memCanonical := h.memCanonical
  zeroPastLen := h.zeroPastLen
  lenBound := h.lenBound
  ipRange := h.ipRange
  waitRunning := fun hw => absurd rfl hw
  eosNotBefore := fun hp => absurd rfl hp
  eosOnceLast := fun _ => ⟨s.ports, rfl, h.eosNotBefore (by simp [hr])⟩

end Sys2Proof.Machine
end

