-- ==== Sys2Proof/Laws/Inversion.lean ====
section
/-! SUPPORT. Everything an instruction can do, as one case list with the guards of each case: a
claim about all instructions is a case analysis of `ExecForm`. -/

namespace Sys2Proof.Machine

open Sys2Proof

/-- The forms of the state an instruction leaves. -/
inductive ExecForm (i : Instr) (s : State) : State → Prop where
  /-- a fault with nothing grown: of resolution, or of a jump's or ARB's handler -/
  | fault (k : FaultKind) (hk : k ≠ .inputTimeout ∧ k ≠ .outputTimeout)
      (hw : writeAddress i s = none)
      (ho : ∀ m p, i = .output m p → readParam m.m0 p s = .error k) :
      ExecForm i s (takeFault k s)
  /-- the handler's overflow, after the growth of resolution -/
  | overflow (d : Nat) (hw : writeAddress i s = some d) (ha : i.opcode ∈ [Opcode.add, .mul]) :
      ExecForm i s (takeFault .arithmeticOverflow (memSlot d s))
  /-- ADD, MUL, LT, EQ -/
  | store (d : Nat) (r : Word) (hw : writeAddress i s = some d) (hd : d < Config.memLimit)
      (ha : i.opcode ∈ [Opcode.add, .mul, .lt, .eq]) (hv : s.storedValue i r.toInt) :
      ExecForm i s (advance 4 (memWrite d r (memSlot d s)))
  /-- IN, a transfer -/
  | taken (m : Modes) (p : Word) (d : Nat) (v : Word) (hi : i = .input m p)
      (ht : writeTarget m.m0 p s = .ok d) (ho : (hostDraw s).offered = some v) :
      ExecForm i s (advance 2 (memWrite d v (record (.taken v) (takeDraw (memSlot d s)))))
  /-- IN, the timeout -/
  | inputTimeout (m : Modes) (p : Word) (d : Nat) (hi : i = .input m p)
      (ht : writeTarget m.m0 p s = .ok d) (ho : (hostDraw s).offered = none)
      (hx : (hostDraw s).timedOut = true) :
      ExecForm i s (takeFault .inputTimeout (takeDraw (memSlot d s)))
  /-- IN, a hold -/
  | inputHold (m : Modes) (p : Word) (d : Nat) (hi : i = .input m p)
      (ht : writeTarget m.m0 p s = .ok d) (ho : (hostDraw s).offered = none)
      (hx : (hostDraw s).timedOut = false) :
      ExecForm i s (hold .input (takeDraw (memSlot d s)))
  /-- OUT, a transfer -/
  | delivered (m : Modes) (p v : Word) (hi : i = .output m p)
      (hr : readParam m.m0 p s = .ok v) (ho : (hostDraw s).outReady = true) :
      ExecForm i s (advance 2 (record (.delivered v) (takeDraw s)))
  /-- OUT, the timeout -/
  | outputTimeout (m : Modes) (p v : Word) (hi : i = .output m p)
      (hr : readParam m.m0 p s = .ok v) (ho : (hostDraw s).outReady = false)
      (hx : (hostDraw s).timedOut = true) :
      ExecForm i s (takeFault .outputTimeout (takeDraw s))
  /-- OUT, a hold that offers its word -/
  | outputHold (m : Modes) (p v : Word) (hi : i = .output m p)
      (hr : readParam m.m0 p s = .ok v) (ho : (hostDraw s).outReady = false)
      (hx : (hostDraw s).timedOut = false) :
      ExecForm i s (hold (.output v) (takeDraw s))
  /-- JT or JF, taken -/
  | jumped (m : Modes) (p0 p1 c g : Word) (hc : readParam m.m0 p0 s = .ok c)
      (hg : readParam m.m1 p1 s = .ok g) (h0 : 0 ≤ g.toInt)
      (hi : (i = .jt m p0 p1 ∧ c ≠ 0) ∨ (i = .jf m p0 p1 ∧ c = 0)) :
      ExecForm i s (jumpTo g.toInt.toNat s)
  /-- JT or JF, not taken -/
  | notJumped (m : Modes) (p0 p1 c g : Word) (hc : readParam m.m0 p0 s = .ok c)
      (hg : readParam m.m1 p1 s = .ok g)
      (hi : (i = .jt m p0 p1 ∧ c = 0) ∨ (i = .jf m p0 p1 ∧ c ≠ 0)) :
      ExecForm i s (advance 3 s)
  /-- ARB -/
  | based (m : Modes) (p v r : Word) (hi : i = .arb m p) (hr : readParam m.m0 p s = .ok v)
      (hs : sumResult Config.overflowMode s.rb v = .ok r) :
      ExecForm i s (advance 2 (setBase r s))
  /-- HALT -/
  | halted (m : Modes) (hi : i = .halt m) : ExecForm i s (haltEngine s)

theorem paramAddress_fault_kind {x : Int} {k : FaultKind} (h : addr x = .error k) :
    k ≠ .inputTimeout ∧ k ≠ .outputTimeout := by
  rcases addr_error h with ⟨-, rfl⟩ | ⟨-, rfl⟩ <;> decide

theorem readParam_fault_kind {m : Mode} {raw : Word} {s : State} {k : FaultKind}
    (h : readParam m raw s = .error k) : k ≠ .inputTimeout ∧ k ≠ .outputTimeout := by
  unfold readParam at h
  split at h
  · simp at h
  · split at h
    · next h' => simp only [Except.error.injEq] at h; exact h ▸ paramAddress_fault_kind h'
    · simp at h

theorem writeTarget_fault_kind {m : Mode} {raw : Word} {s : State} {k : FaultKind}
    (h : writeTarget m raw s = .error k) : k ≠ .inputTimeout ∧ k ≠ .outputTimeout := by
  unfold writeTarget at h
  split at h
  · simp only [Except.error.injEq] at h; subst h; decide
  · exact paramAddress_fault_kind h

theorem resolveRR_fault_kind {m : Modes} {p0 p1 : Word} {s : State} {k : FaultKind}
    (h : resolveRR m p0 p1 s = .error k) : k ≠ .inputTimeout ∧ k ≠ .outputTimeout := by
  rcases resolveRR_error_iff.1 h with h | ⟨a, -, h⟩ <;> exact readParam_fault_kind h

theorem resolveRRW_fault_kind {m : Modes} {p0 p1 p2 : Word} {s : State} {k : FaultKind}
    (h : resolveRRW m p0 p1 p2 s = .error k) : k ≠ .inputTimeout ∧ k ≠ .outputTimeout := by
  rcases resolveRRW_error_iff.1 h with h | ⟨a, b, -, h⟩
  · exact resolveRR_fault_kind h
  · exact writeTarget_fault_kind h

theorem narrow_error {mode : OverflowMode} {r : Int} {k : FaultKind}
    (h : narrow mode r = .error k) : k = .arithmeticOverflow := by
  unfold narrow at h
  split at h
  · simp at h
  · split at h <;> simp at h
    exact h.symm

/-- The word a result is narrowed to under Fault is the exact result. -/
theorem narrow_fault_ok {r : Int} {w : Word} (h : narrow .fault r = .ok w) : w.toInt = r := by
  unfold narrow at h
  split at h
  · next hw => cases h; exact toInt_ofInteger hw
  · simp at h

theorem toInt_lessResult (a b : Word) :
    (lessResult a b).toInt = if a.toInt < b.toInt then 1 else 0 := by
  unfold lessResult; split <;> rfl

theorem toInt_equalResult (a b : Word) :
    (equalResult a b).toInt = if a.toInt = b.toInt then 1 else 0 := by
  simp only [BitVec.toInt_inj]; unfold equalResult; split <;> rfl

/-- The four instructions of the shape read, read, write. -/
theorem threeOperand_form {i : Instr} {f : Word → Word → Except FaultKind Word} {m : Modes}
    {p0 p1 p2 : Word} {s : State}
    (ho : ∀ m p, i ≠ .output m p)
    (hw : writeAddress i s =
      match resolveRRW m p0 p1 p2 s with
      | .error _ => none
      | .ok o => some o.d)
    (hi : i.opcode ∈ [Opcode.add, .mul, .lt, .eq])
    (hf : ∀ a b k, f a b = .error k → k = .arithmeticOverflow ∧ i.opcode ∈ [Opcode.add, .mul])
    (hv : ∀ a b r, readParam m.m0 p0 s = .ok a → readParam m.m1 p1 s = .ok b → f a b = .ok r →
      s.storedValue i r.toInt) :
    ExecForm i s (threeOperand f m p0 p1 p2 s) := by
  rcases threeOperand_cases f m p0 p1 p2 s with ⟨k, hk, h⟩ | ⟨a, b, d, k, ha, hb, hd, hk, h⟩ |
    ⟨a, b, d, r, ha, hb, hd, hk, h⟩
  · rw [h]
    exact .fault k (resolveRRW_fault_kind hk) (by rw [hw, hk]) fun m p e => absurd e (ho m p)
  · have hr : resolveRRW m p0 p1 p2 s = .ok ⟨a, b, d, memSlot d s⟩ :=
      resolveRRW_ok_iff.2 ⟨ha, hb, hd, rfl⟩
    obtain ⟨rfl, ho⟩ := hf a b k hk
    rw [h]
    exact .overflow d (by rw [hw, hr]) ho
  · have hr : resolveRRW m p0 p1 p2 s = .ok ⟨a, b, d, memSlot d s⟩ :=
      resolveRRW_ok_iff.2 ⟨ha, hb, hd, rfl⟩
    rw [h]
    exact .store d r (by rw [hw, hr]) (writeTarget_lt hd) hi (hv a b r ha hb hk)

/-- The two jumps. -/
theorem conditionalJump_form {i : Instr} {taken : Word → Bool} {m : Modes} {p0 p1 : Word}
    {s : State} (ho : ∀ m p, i ≠ .output m p) (hw : writeAddress i s = none)
    (hy : ∀ c, taken c = true → (i = .jt m p0 p1 ∧ c ≠ 0) ∨ (i = .jf m p0 p1 ∧ c = 0))
    (hn : ∀ c, taken c = false → (i = .jt m p0 p1 ∧ c = 0) ∨ (i = .jf m p0 p1 ∧ c ≠ 0)) :
    ExecForm i s (conditionalJump taken m p0 p1 s) := by
  unfold conditionalJump
  split
  · next k h => exact .fault k (resolveRR_fault_kind h) hw fun m p e => absurd e (ho m p)
  · next c g h =>
    obtain ⟨hc, hg⟩ := resolveRR_ok_iff.1 h
    split
    · next ht =>
      split
      · exact .fault _ (by decide) hw fun m p e => absurd e (ho m p)
      · next h0 => exact .jumped m p0 p1 c g hc hg (by omega) (hy c ht)
    · next ht => exact .notJumped m p0 p1 c g hc hg (hn c (by simpa using ht))

/-- Every instruction has one of the forms. -/
theorem execState_form (i : Instr) (s : State) : ExecForm i s (execState i s) := by
  cases i with
  | add m p0 p1 p2 =>
    exact threeOperand_form (m := m) (by simp) rfl (by simp [Instr.opcode])
      (fun a b k h => ⟨narrow_error h, by simp [Instr.opcode]⟩)
      fun a b r ha hb h => ⟨a, b, ha, hb, narrow_fault_ok h⟩
  | mul m p0 p1 p2 =>
    exact threeOperand_form (m := m) (by simp) rfl (by simp [Instr.opcode])
      (fun a b k h => ⟨narrow_error h, by simp [Instr.opcode]⟩)
      fun a b r ha hb h => ⟨a, b, ha, hb, narrow_fault_ok h⟩
  | lt m p0 p1 p2 =>
    rw [execState_lt]
    exact threeOperand_form (by simp) rfl (by simp [Instr.opcode]) (fun a b k h => by cases h)
      fun a b r ha hb h => by cases h; exact ⟨a, b, ha, hb, toInt_lessResult a b⟩
  | eq m p0 p1 p2 =>
    rw [execState_eq]
    exact threeOperand_form (by simp) rfl (by simp [Instr.opcode]) (fun a b k h => by cases h)
      fun a b r ha hb h => by cases h; exact ⟨a, b, ha, hb, toInt_equalResult a b⟩
  | input m p =>
    cases h : writeTarget m.m0 p s with
    | error k =>
      rw [execState_input_fault h]
      exact .fault k (writeTarget_fault_kind h) (by simp [writeAddress, h]) (by simp)
    | ok d =>
      rw [execState_input_wait h]
      rcases inputWait_cases d (memSlot d s) with ⟨v, ho, e⟩ | ⟨ho, hx, e⟩ | ⟨ho, hx, e⟩ <;>
        rw [e] <;> rw [hostDraw_memSlot] at ho
      · exact .taken m p d v rfl h ho
      · rw [hostDraw_memSlot] at hx; exact .inputTimeout m p d rfl h ho hx
      · rw [hostDraw_memSlot] at hx; exact .inputHold m p d rfl h ho hx
  | output m p =>
    cases h : readParam m.m0 p s with
    | error k =>
      rw [execState_output_fault h]
      exact .fault k (readParam_fault_kind h) rfl fun m' p' e => by cases e; exact h
    | ok v =>
      rw [execState_output_wait h]
      rcases outputWait_cases v s with ⟨ho, e⟩ | ⟨ho, hx, e⟩ | ⟨ho, hx, e⟩ <;> rw [e]
      · exact .delivered m p v rfl h ho
      · exact .outputTimeout m p v rfl h ho hx
      · exact .outputHold m p v rfl h ho hx
  | jt m p0 p1 =>
    exact conditionalJump_form (by simp) rfl (fun c h => .inl ⟨rfl, by simpa [truth] using h⟩)
      fun c h => .inl ⟨rfl, by simpa [truth] using h⟩
  | jf m p0 p1 =>
    exact conditionalJump_form (by simp) rfl (fun c h => .inr ⟨rfl, by simpa [truth] using h⟩)
      fun c h => .inr ⟨rfl, by simpa [truth] using h⟩
  | arb m p =>
    rw [execState_arb, offsetBase]
    split
    · next k h => exact .fault k (readParam_fault_kind h) rfl (by simp)
    · next v h =>
      split
      · next k h' =>
        have := narrow_error h'
        subst this
        exact .fault _ (by decide) rfl (by simp)
      · next r h' => exact .based m p v r rfl h h'
  | halt m => exact .halted m rfl

end Sys2Proof.Machine
end

