-- ==== Sys2Proof/Laws/PerInstr.lean ====
section
/-! SUPPORT. Statements made for every instruction, one lemma per constructor: the words an
instruction takes (30_encoding.md R44, R56). -/

namespace Sys2Proof.Laws.EncodedLength

open Sys2Proof

/-- An instruction takes `1 + N` words, at most four (R44, R56). -/
def Statement (i : Instr) : Prop :=
  (encode i).length = i.length ∧ 1 ≤ i.length ∧ i.length ≤ 1 + Config.maxArity

theorem add (m : Modes) (p0 p1 p2 : Word) : Statement (.add m p0 p1 p2) :=
  ⟨rfl, Instr.one_le_length _, Instr.length_le _⟩

theorem mul (m : Modes) (p0 p1 p2 : Word) : Statement (.mul m p0 p1 p2) :=
  ⟨rfl, Instr.one_le_length _, Instr.length_le _⟩

theorem input (m : Modes) (p0 : Word) : Statement (.input m p0) := ⟨rfl, Instr.one_le_length _, Instr.length_le _⟩

theorem output (m : Modes) (p0 : Word) : Statement (.output m p0) := ⟨rfl, Instr.one_le_length _, Instr.length_le _⟩

theorem jt (m : Modes) (p0 p1 : Word) : Statement (.jt m p0 p1) := ⟨rfl, Instr.one_le_length _, Instr.length_le _⟩

theorem jf (m : Modes) (p0 p1 : Word) : Statement (.jf m p0 p1) := ⟨rfl, Instr.one_le_length _, Instr.length_le _⟩

theorem lt (m : Modes) (p0 p1 p2 : Word) : Statement (.lt m p0 p1 p2) :=
  ⟨rfl, Instr.one_le_length _, Instr.length_le _⟩

theorem eq (m : Modes) (p0 p1 p2 : Word) : Statement (.eq m p0 p1 p2) :=
  ⟨rfl, Instr.one_le_length _, Instr.length_le _⟩

theorem arb (m : Modes) (p0 : Word) : Statement (.arb m p0) := ⟨rfl, Instr.one_le_length _, Instr.length_le _⟩

theorem halt (m : Modes) : Statement (.halt m) := ⟨rfl, Instr.one_le_length _, Instr.length_le _⟩

end Sys2Proof.Laws.EncodedLength
end

