-- ==== Sys2Proof/Tests/Slice0.lean ====
section
/-! SUPPORT. The model's own tests. Expected values are the spec's: the words of 30_encoding.md R47
and R57 written out digit by digit, and the vectors of 95_test_vectors.md. Then a witness for the
hypotheses of every statement of Certificates/Slice0/Obligations.lean that has any. -/

namespace Sys2Proof.Tests

open Sys2Proof Sys2Proof.Machine

/-- The state after `LOAD` of a program, with the host's next draws. -/
def start (program : List Int) (draws : List HostDraw) : State :=
  { loadRequest program State.reset with host := draws }

/-- One step. -/
def after (s : State) : State :=
  match step s with
  | .next t => t
  | .fault r => nomatch r
  | .refused _ => s

/-- The host offers a word. -/
def offer (v : Word) : HostDraw := ⟨some v, false, false⟩

/-- The host accepts an output. -/
def accept : HostDraw := ⟨none, true, false⟩

/-- The host does nothing. -/
def quiet : HostDraw := ⟨none, false, false⟩

/-- The timeout fires. -/
def expired : HostDraw := ⟨none, false, true⟩

/-! ### Decoding: one word of each opcode, from the digits of R45, R47 and R49 -/

-- 1 + 100*0 + 1000*1 + 10000*2
theorem test_decode_add : decode [21001, 5, -6, 7] =
    .ok (.add ⟨.position, .immediate, .relative, .position⟩ 5 (-6) 7, []) := by decide

-- 2 + 100*2 + 1000*1 + 10000*2 (R57's example)
theorem test_decode_mul : decode [21202, 2, 7, -1] =
    .ok (.mul ⟨.relative, .immediate, .relative, .position⟩ 2 7 (-1), []) := by decide

-- 3 + 100*2
theorem test_decode_in : decode [203, -1, 99] =
    .ok (.input ⟨.relative, .position, .position, .position⟩ (-1), [99]) := by decide

-- 4 + 100*1
theorem test_decode_out : decode [104, 7, 99] =
    .ok (.output ⟨.immediate, .position, .position, .position⟩ 7, [99]) := by decide

-- 5 + 100*1 + 1000*0
theorem test_decode_jt : decode [105, 1, 7] =
    .ok (.jt ⟨.immediate, .position, .position, .position⟩ 1 7, []) := by decide

-- 6 + 100*0 + 1000*1
theorem test_decode_jf : decode [1006, 25, 22] =
    .ok (.jf ⟨.position, .immediate, .position, .position⟩ 25 22, []) := by decide

-- 7 + 100*1 + 1000*2
theorem test_decode_lt : decode [2107, 1, 2, 3] =
    .ok (.lt ⟨.immediate, .relative, .position, .position⟩ 1 2 3, []) := by decide

-- 8 + 1000*1
theorem test_decode_eq : decode [1008, 100, 16, 101] =
    .ok (.eq ⟨.position, .immediate, .position, .position⟩ 100 16 101, []) := by decide

-- 9 + 100*2
theorem test_decode_arb : decode [209, -1] =
    .ok (.arb ⟨.relative, .position, .position, .position⟩ (-1), []) := by decide

-- 99 with the four unused digits 2 (R53)
theorem test_decode_halt : decode [222299] =
    .ok (.halt ⟨.relative, .relative, .relative, .relative⟩, []) := by decide

-- slot 3's digit is decoded though no opcode reads it (R53)
theorem test_decode_slot3 : decode [100001, 0, 0, 0] =
    .ok (.add ⟨.position, .position, .position, .immediate⟩ 0 0 0, []) := by decide

-- the decode vectors of 95_test_vectors.md that fault
theorem test_decode_refuses :
    decode [399] = .error (.unknownMode 0) ∧
    decode [3099] = .error (.unknownMode 1) ∧
    decode [30001, 0, 0, 0] = .error (.unknownMode 2) ∧
    decode [300001, 0, 0, 0] = .error (.unknownMode 3) ∧
    decode [1000001, 0, 0, 0] = .error .excessDigits := by decide

theorem test_decode_refuses_codes :
    decode [-1] = .error .negativeWord ∧ decode [-99] = .error .negativeWord ∧
    decode [0] = .error .unknownCode ∧ decode [10] = .error .unknownCode ∧
    decode [98] = .error .unknownCode ∧ decode [350] = .error .unknownCode ∧
    decode [1, 2] = .error .truncated := by decide

theorem test_encode_mul :
    encode (.mul ⟨.relative, .immediate, .relative, .position⟩ 2 7 (-1)) = [21202, 2, 7, -1] := by
  decide

/-- A table word: bit 0 is the first word's, later words count on from it. -/
theorem test_decodeTableWord : decodeTableWord 128 (104 + 9 * 2 ^ 64) =
    some (.output ⟨.immediate, .position, .position, .position⟩ 9) := by decide

/-! ### Well-formedness: each check refuses an ill-formed term -/

theorem test_illFormed_add :
    (Instr.add ⟨.immediate, .immediate, .immediate, .position⟩ 1 2 3).wellFormed = false := rfl
theorem test_illFormed_mul :
    (Instr.mul ⟨.position, .position, .immediate, .position⟩ 1 2 3).wellFormed = false := rfl
theorem test_illFormed_in :
    (Instr.input ⟨.immediate, .position, .position, .position⟩ 5).wellFormed = false := rfl
theorem test_illFormed_lt :
    (Instr.lt ⟨.position, .position, .immediate, .position⟩ 1 2 3).wellFormed = false := rfl
theorem test_illFormed_eq :
    (Instr.eq ⟨.position, .position, .immediate, .position⟩ 1 2 3).wellFormed = false := rfl
theorem test_wellFormed_unused_immediate :
    (Instr.input ⟨.position, .immediate, .immediate, .immediate⟩ 5).wellFormed = true := rfl
theorem test_not_canonical :
    (Instr.halt ⟨.position, .position, .position, .relative⟩).canonical = false := by decide
theorem test_canonical :
    (Instr.jt ⟨.immediate, .immediate, .position, .position⟩ 1 7).canonical = true := by decide
/-- LOAD refuses a value that is no word (R112). -/
theorem test_load_refuses :
    loadable [99, 9223372036854775808] = false ∧ loadable [99, -9223372036854775808] = true := by
  decide

/-! ### One step (95_test_vectors.md) -/

-- L1.1 step 1: stores inside its own instruction stream
theorem test_add_self : let t := after (start [1, 9, 10, 3, 2, 3, 11, 0, 99, 30, 40, 50] [])
    memRead 3 t = 70 ∧ t.ip = 4 ∧ t.len = 12 := by decide

-- P5: overflow after growth
theorem test_add_overflow : let t := after (start [1101, 9223372036854775807, 1, 7, 99] [])
    t.phase = .faulted .arithmeticOverflow ∧ t.ip = 0 ∧ t.len = 8 ∧ memRead 7 t = 0 ∧
      status t = 34 := by decide

theorem test_mul_min : let t := after (start [1102, -4294967296, 2147483648, 0, 99] [])
    memRead 0 t = -9223372036854775808 ∧ t.phase = .running := by decide

theorem test_mul_overflow :
    (after (start [1102, -9223372036854775808, -1, 0, 99] [])).phase =
      .faulted .arithmeticOverflow := by decide

/-- The Wrap rows of the vector table (R69's alternative). -/
theorem test_wrap :
    sumResult .wrap 9223372036854775807 1 = .ok (-9223372036854775808) ∧
    productResult .wrap (-9223372036854775808) (-1) = .ok (-9223372036854775808) := by decide

-- L1.2: the input overwrites its own instruction word, the advance is still 2
theorem test_in_self : let t := after (start [3, 0, 4, 0, 99] [offer 123])
    memRead 0 t = 123 ∧ t.ip = 2 ∧ inputs t = [123] := by decide

-- `3,10,99` with no word offered: IN_WAIT, len grown already
theorem test_in_hold : let t := after (start [3, 10, 99] [quiet])
    status t = 64 ∧ t.len = 11 ∧ t.ip = 0 ∧ t.phase = .running := by decide

theorem test_out_past_len : let t := after (start [4, 50, 99] [accept])
    outputs t = [0] ∧ t.ip = 2 ∧ t.len = 3 := by decide

theorem test_out_timeout : let t := after (start [104, 2, 99] [expired])
    t.phase = .faulted .outputTimeout ∧ outputs t = [] ∧ t.ip = 0 := by decide

theorem test_jt_taken : (after (start [1105, 1, 268435456] [])).ip = 268435456 := by decide

theorem test_jt_negative :
    (after (start [1105, 1, -1] [])).phase = .faulted .invalidAddressConversion := by decide

-- `-1` is true, so JF falls through
theorem test_jf_minus_one : (after (start [1106, -1, 4, 99, 99] [])).ip = 3 := by decide

theorem test_jf_taken : (after (start [1106, 0, 4, 0, 99] [])).ip = 4 := by decide

theorem test_lt_signed : let t := after (start [1107, -1, 0, 5, 99, 7] [])
    memRead 5 t = 1 ∧ t.ip = 4 := by decide

theorem test_lt_equal : memRead 5 (after (start [1107, 8, 8, 5, 99, 7] [])) = 0 := by decide

-- the same address twice and as the target
theorem test_eq_same : memRead 5 (after (start [8, 5, 5, 5, 99, 7] [])) = 1 := by decide

theorem test_eq_extremes : memRead 5
    (after (start [1108, -9223372036854775808, 9223372036854775807, 5, 99, 7] [])) = 0 := by decide

theorem test_arb_negative : let t := after (start [109, -7, 99] [])
    t.rb = -7 ∧ t.ip = 2 := by decide

-- `ARB [rb-1]` with rb = 3 reads mem[2] with the old base: 3 + 209
theorem test_arb_old_base :
    (after { start [109, 3, 209, -1, 204, -3, 99] [] with ip := 2, rb := 3 }).rb = 212 := by decide

theorem test_halt : let t := after (start [99] [])
    t.phase = .halted ∧ t.ip = 0 ∧ t.ports = [.endOfStream] ∧ status t = 1 := by decide

theorem test_halt_bad_mode :
    (after (start [399] [])).phase = .faulted .unknownParameterMode := by decide

/-- The first fault in slot order is reported. -/
theorem test_fault_order :
    (after (start [1, 268435456, -1, 0, 99] [])).phase = .faulted .memoryBounds ∧
    (after (start [1, -1, 268435456, 0, 99] [])).phase = .faulted .invalidAddressConversion := by
  decide

/-- Growth to the last address of all. -/
theorem test_last_address : let t := after (start [1101, 1, 2, 268435455, 99] [])
    t.len = 268435456 ∧ memRead 268435455 t = 3 := by decide

/-- An operand fetch at the limit faults there (95_test_vectors.md, jumps, last row, step 3). -/
theorem test_operand_fetch_at_limit :
    let s := start [4] []
    (after { s with mem := [(268435455, 4)], len := 268435456, ip := 268435455 }).phase =
      .faulted .memoryBounds := by decide

/-- The empty program's first step. -/
theorem test_empty_program : (after State.reset).phase = .faulted .unknownOpcode := by decide

/-- P1 assembles to the words the spec gives. -/
theorem test_assemble_P1 :
    assemble
      [.labelled 0, .instr .output [.position (.label 1)],
        .instr .add [.position (.label 1), .immediate (.literal (-1)), .position (.label 1)],
        .instr .jt [.position (.label 1), .immediate (.label 0)], .instr .halt [],
        .labelled 1, .words [.literal 3]] =
      some [4, 10, 1001, 10, -1, 10, 1005, 10, 0, 99, 3] := by decide

/-- The pseudo-instructions' words (R58), and a literal refused as a write operand (R57). -/
theorem test_pseudo :
    assemble [asmMov (.relative (.literal 2)) (.position (.literal 9))] =
      some [1201, 2, 0, 9] ∧
    assemble [asmClr (.relative (.literal (-1)))] = some [21101, 0, 0, -1] ∧
    assemble [asmNeg (.position (.literal 5)) (.position (.literal 6))] =
      some [1002, 5, -1, 6] ∧
    assemble [asmJmp (.immediate (.literal 7))] = some [1105, 1, 7] ∧
    assemble [asmNot (.immediate (.literal 5)) (.position (.literal 6))] =
      some [1108, 5, 0, 6] ∧
    assemble [asmClr (.immediate (.literal 4))] = none := by decide

/-- `MUL [rb+2], 7, [rb-1]`, R57's example, as it is written. -/
theorem test_assemble_relative :
    assemble [.instr .mul [.relative (.literal 2), .immediate (.literal 7),
      .relativeMinus (.literal 1)]] = some [21202, 2, 7, -1] := by decide

/-- An instruction placed at `ip` right after reset is what the step runs. -/
theorem test_withFetchWord :
    (after (State.reset.withFetchWord 192 (1105 + 1 * 2 ^ 64 + 7 * 2 ^ 128))).ip = 7 := by decide

/-! ### Witnesses: states and operands that meet the statements' hypotheses -/

/-- A program whose words the witnesses read. -/
def sample : State := start [1101, 2, 3, 7, 99, -1] []

/-- What the invariant of a fresh running state comes to. -/
theorem inv_of_fresh {s : State} (h1 : Memory.wf s.mem = true) (h2 : ∀ c ∈ s.mem, c.1 < s.len)
    (h3 : s.len ≤ Config.memLimit) (h4 : (s.ip : Int) ≤ Config.wmax) (h5 : s.wait = .idle)
    (h6 : s.phase = .running) (h7 : s.ports = []) : s.Inv :=
  ⟨h1, h2, h3, h4, fun h => absurd h5 h, fun _ => by simp [h7], fun h => by simp [h6] at h⟩

theorem sample_inv : sample.Inv :=
  inv_of_fresh (by decide) (by decide) (by decide) (by decide) rfl rfl rfl

/-- The same state with `len` grown: no word differs. -/
def grown : State := { sample with len := 9 }

theorem grown_inv : grown.Inv :=
  inv_of_fresh (by decide) (by decide) (by decide) (by decide) rfl rfl rfl

/-- All modes Immediate but the third, Position. -/
def imm : Modes := ⟨.immediate, .immediate, .position, .position⟩

/-- All modes Immediate. -/
def allImm : Modes := ⟨.immediate, .immediate, .immediate, .immediate⟩

/-- All modes Position. -/
def pos : Modes := ⟨.position, .position, .position, .position⟩

theorem witness_EncodeOfDecodeIsTheWords : decode [104, 7, 99] =
    .ok (.output ⟨.immediate, .position, .position, .position⟩ 7, [99]) := by decide

theorem witness_LegalWordIsSumOfItsFields :
    decodeHead 222299 = .ok (.halt, ⟨.relative, .relative, .relative, .relative⟩) := by decide

theorem witness_NegativeWordIsUnknownOpcode :
    let s := start [-1] []
    s.phase = .running ∧ s.ip < Config.memLimit ∧ (memRead s.ip s).toInt < 0 := by decide

theorem witness_DecodeAnswersByItsChecks :
    (BitVec.toInt (-1 : Word) < 0) ∧
    (0 ≤ BitVec.toInt (10 : Word) ∧ opcodeOf (BitVec.toNat (10 : Word) % 100) = none) ∧
    (0 ≤ BitVec.toInt (300099 : Word) ∧ opcodeOf (BitVec.toNat (300099 : Word) % 100) = some .halt ∧
      ¬ BitVec.toNat (300099 : Word) / 10 ^ (2 + 3) % 10 ≤ 2) ∧
    (opcodeOf (BitVec.toNat (1000099 : Word) % 100) = some .halt ∧
      (∀ k, k < Config.modeSlots → BitVec.toNat (1000099 : Word) / 10 ^ (2 + k) % 10 ≤ 2) ∧
      (10 : Int) ^ 6 ≤ BitVec.toInt (1000099 : Word)) ∧
    (opcodeOf (BitVec.toNat (222299 : Word) % 100) = some .halt ∧
      (∀ k, k < Config.modeSlots → BitVec.toNat (222299 : Word) / 10 ^ (2 + k) % 10 ≤ 2) ∧
      BitVec.toInt (222299 : Word) < (10 : Int) ^ 6) := by decide

theorem witness_AssembledInstructionIsCanonical :
    asmInstr [] .jt [.immediate (.literal 1), .position (.literal 7)] =
      some (.jt ⟨.immediate, .position, .position, .position⟩ 1 7) := by decide

/-- Numbers at the edges of the words, and each ground on which operands are refused. -/
theorem witness_AssembledInstructionIsCanonical_accepts :
    asmInstr [] .output [.immediate (.literal 9223372036854775807)] =
      some (.output ⟨.immediate, .position, .position, .position⟩ 9223372036854775807) ∧
    asmInstr [] .output [.relativeMinus (.literal 9223372036854775808)] =
      some (.output ⟨.relative, .position, .position, .position⟩ (-9223372036854775808)) ∧
    asmInstr [] .output [.immediate (.literal 9223372036854775808)] = none ∧
    asmInstr [] .input [.immediate (.literal 7)] = none ∧
    asmInstr [] .output [.immediate (.label 0)] = none ∧
    asmInstr [] .halt [.immediate (.literal 7)] = none := by decide

/-- The address check's clauses at their edges. -/
theorem witness_AddressCheckOfEveryInteger :
    addr (-1) = .error .invalidAddressConversion ∧ addr 0 = .ok 0 ∧
    addr 268435455 = .ok 268435455 ∧ addr 268435456 = .error .memoryBounds := by decide

/-- `MemSlot` at the last held address and at the first beyond. -/
theorem witness_MemSlotGrowsAndZeroFills :
    5 < sample.len ∧ memSlot 5 sample = sample ∧ sample.len ≤ 6 ∧ (memSlot 6 sample).len = 7 := by
  decide

theorem witness_GrowOnWriteZeroOnRead :
    sample.Inv ∧ sample.len ≤ 6 ∧ 268435455 < Config.memLimit ∧
      paramAddress .position 268435456 sample.rb = some 268435456 ∧
      (Config.memLimit : Int) ≤ 268435456 :=
  ⟨sample_inv, by decide, by decide, by decide, by decide⟩

theorem witness_StoresLeaveNothingButTheirWords :
    sample.Inv ∧ 0 < sample.len ∧ 5 < sample.len ∧ (0 : Nat) ≠ 5 :=
  ⟨sample_inv, by decide, by decide, by decide⟩

/-- Read resolution at -1, 0, the last held address, `len`, the last address and the limit. -/
theorem witness_ReadParameterResolution :
    readParam .position (-1) sample = .error .invalidAddressConversion ∧
    readParam .position 0 sample = .ok 1101 ∧ readParam .position 5 sample = .ok (-1) ∧
    readParam .position 6 sample = .ok 0 ∧ readParam .position 268435455 sample = .ok 0 ∧
    readParam .position 268435456 sample = .error .memoryBounds ∧
    readParam .relative (-1) { sample with rb := 6 } = .ok (-1) ∧
    readParam .relative 9223372036854775807 { sample with rb := 9223372036854775807 } =
      .error .memoryBounds := by decide

theorem witness_WriteParameterResolution :
    writeTarget .position (-1) sample = .error .invalidAddressConversion ∧
    writeTarget .position 0 sample = .ok 0 ∧
    writeTarget .position 268435455 sample = .ok 268435455 ∧
    writeTarget .position 268435456 sample = .error .memoryBounds ∧
    writeTarget .immediate 0 sample = .error .invalidWriteTarget := by decide

theorem witness_FirstResolutionFaultIsTaken :
    readParam .position (-1) sample = .error .invalidAddressConversion ∧
    (readParam .immediate 1 sample = .ok 1 ∧
      readParam .position 268435456 sample = .error .memoryBounds) ∧
    (readParam .immediate 2 sample = .ok 2 ∧
      writeTarget .immediate 7 sample = .error .invalidWriteTarget) := by decide

theorem witness_ImmediateWriteTargetFaults :
    allImm.m2 = .immediate ∧ allImm.m0 = .immediate ∧ readParam allImm.m0 1 sample = .ok 1 ∧
      readParam allImm.m1 2 sample = .ok 2 := by decide

theorem witness_StepRunsTheDecodedInstruction :
    sample.phase = .running ∧ decode (fetchWindow sample) = .ok (.add imm 2 3 7, []) := by decide

theorem witness_StoppedEngineDoesNothing :
    (after (start [99] [])).phase = .halted ∧
      (after (start [0] [])).phase = .faulted .unknownOpcode := by decide

theorem witness_InstructionFetch :
    sample.phase = .running ∧ sample.ip < Config.memLimit ∧
    Config.memLimit ≤ ({ sample with ip := 268435456 } : State).ip ∧
    (sample.len ≤ ({ sample with ip := 6 } : State).ip ∧
      ({ sample with ip := 268435455 } : State).ip < Config.memLimit) := by decide

/-- An instruction that ends at the limit, and one that ends one word beyond. -/
theorem witness_OperandFetchPrecedesResolution :
    let s : State := { sample with mem := [(268435454, 104)], len := 268435456, ip := 268435454 }
    let t : State := { sample with mem := [(268435455, 104)], len := 268435456, ip := 268435455 }
    let u : State := { sample with mem := [(268435455, 99)], len := 268435456, ip := 268435455 }
    (decodeHead (memRead s.ip s) = .ok (.output, ⟨.immediate, .position, .position, .position⟩) ∧
      s.ip + Opcode.output.arity < Config.memLimit) ∧
    (decodeHead (memRead t.ip t) = .ok (.output, ⟨.immediate, .position, .position, .position⟩) ∧
      Config.memLimit ≤ t.ip + Opcode.output.arity) ∧
    decodeHead (memRead u.ip u) = .ok (.halt, pos) := by decide

theorem witness_PointerAfterCompletedStep :
    (fetchInstr sample = .ok (.add imm 2 3 7) ∧ (after sample).phase = .running ∧
      (after sample).wait = .idle) ∧
    (fetchInstr (start [99] []) = .ok (.halt pos) ∧ (after (start [99] [])).phase = .halted) ∧
    ((after (start [1105, 1, 7] [])).phase = .running ∧
      (after (start [1106, 1, 7] [])).phase = .running) := by decide

theorem witness_FaultIsPrecise :
    let s := start [1101, 9223372036854775807, 1, 7, 99] []
    s.phase = .running ∧ (after s).phase = .faulted .arithmeticOverflow ∧
      step s = .next (after s) := ⟨rfl, by decide, rfl⟩

theorem witness_LengthGrowsAtResolutionOnly :
    sample.phase = .running ∧ step sample = .next (after sample) ∧ grownLen sample = 8 :=
  ⟨rfl, rfl, by decide⟩

theorem witness_OnlyTheWriteAddressChanges :
    step sample = .next (after sample) ∧ memRead 7 (after sample) ≠ memRead 7 sample :=
  ⟨rfl, by decide⟩

theorem witness_OnlyRelativeBaseOffsetChangesBase :
    let s := start [109, 19, 99] []
    step s = .next (after s) ∧ (after s).rb ≠ s.rb := ⟨rfl, by decide⟩

theorem witness_PhaseChangesTwoWays :
    (after (start [99] [])).phase ≠ (start [99] []).phase ∧
      (after (start [0] [])).phase ≠ (start [0] []).phase := by decide

theorem witness_PortEventsAppendInOrder :
    (after (start [3, 0, 99] [offer 5])).ports = [.taken 5] ∧
    (after (start [104, 5, 99] [accept])).ports = [.delivered 5] ∧
    (after (start [99] [])).ports = [.endOfStream] ∧ (after sample).ports = [] := by decide

theorem witness_OtherInstructionsIgnoreTheHost :
    isPortInstr (.add imm 2 3 7) = false ∧
      exec (.add imm 2 3 7) sample = .next (after sample) := ⟨rfl, rfl⟩

theorem witness_AddStoresTheSum :
    sample.Inv ∧ readParam imm.m0 2 sample = .ok 2 ∧ readParam imm.m1 3 sample = .ok 3 ∧
      writeTarget imm.m2 7 sample = .ok 7 ∧
      Config.wmin ≤ BitVec.toInt (2 : Word) + BitVec.toInt (3 : Word) ∧
      BitVec.toInt (2 : Word) + BitVec.toInt (3 : Word) ≤ Config.wmax :=
  ⟨sample_inv, by decide, by decide, by decide, by decide, by decide⟩

/-- The greatest and the least product that fit. -/
theorem witness_MultiplyStoresTheProduct :
    sample.Inv ∧ readParam imm.m0 (-4294967296) sample = .ok (-4294967296) ∧
      readParam imm.m1 2147483648 sample = .ok 2147483648 ∧
      writeTarget imm.m2 7 sample = .ok 7 ∧
      Config.wmin ≤ BitVec.toInt (-4294967296 : Word) * BitVec.toInt (2147483648 : Word) ∧
      BitVec.toInt (-4294967296 : Word) * BitVec.toInt (2147483648 : Word) ≤ Config.wmax :=
  ⟨sample_inv, by decide, by decide, by decide, by decide, by decide⟩

theorem witness_ArithmeticOverflowFaults :
    readParam imm.m0 9223372036854775807 sample = .ok 9223372036854775807 ∧
      readParam imm.m1 1 sample = .ok 1 ∧ readParam imm.m1 2 sample = .ok 2 ∧
      writeTarget imm.m2 7 sample = .ok 7 ∧
      Config.wmax < BitVec.toInt (9223372036854775807 : Word) + BitVec.toInt (1 : Word) ∧
      Config.wmax < BitVec.toInt (9223372036854775807 : Word) * BitVec.toInt (2 : Word) := by decide

/-- The narrowing's clauses at the edges of the word range. -/
theorem witness_NarrowingUnderBothModes :
    narrow .fault Config.wmax = .ok 9223372036854775807 ∧
    narrow .fault Config.wmin = .ok (-9223372036854775808) ∧
    narrow .fault (Config.wmax + 1) = .error .arithmeticOverflow ∧
    narrow .wrap (Config.wmax + 1) = .ok (-9223372036854775808) ∧
    narrow .wrap (Config.wmin - 1) = .ok 9223372036854775807 := by decide

theorem witness_LessThanStoresItsOutcome :
    sample.Inv ∧ readParam pos.m0 5 sample = .ok (-1) ∧ readParam pos.m1 6 sample = .ok 0 ∧
      writeTarget pos.m2 7 sample = .ok 7 := ⟨sample_inv, by decide, by decide, by decide⟩

theorem witness_EqualsStoresItsOutcome :
    sample.Inv ∧ readParam pos.m0 5 sample = .ok (-1) ∧ readParam imm.m1 (-1) sample = .ok (-1) ∧
      writeTarget pos.m2 5 sample = .ok 5 := ⟨sample_inv, by decide, by decide, by decide⟩

/-- A state in which the host offers a word. -/
def offered : State := { sample with host := [offer 123] }

theorem witness_InputStoresTheOfferedWord :
    offered.Inv ∧ writeTarget .position 9 offered = .ok 9 ∧
      (hostDraw offered).offered = some 123 :=
  ⟨inv_of_fresh (by decide) (by decide) (by decide) (by decide) rfl rfl rfl, by decide, by decide⟩

theorem witness_InputHoldsOrTimesOut :
    writeTarget .position 9 sample = .ok 9 ∧
      (hostDraw { sample with host := [quiet] }).offered = none ∧
      (hostDraw { sample with host := [quiet] }).timedOut = false ∧
      (hostDraw { sample with host := [expired] }).offered = none ∧
      (hostDraw { sample with host := [expired] }).timedOut = true := by decide

theorem witness_OutputDeliversItsWord :
    readParam .position 5 { sample with host := [accept] } = .ok (-1) ∧
      (hostDraw { sample with host := [accept] }).outReady = true := by decide

theorem witness_OutputHoldsOrTimesOut :
    readParam .position 5 { sample with host := [quiet] } = .ok (-1) ∧
      (hostDraw { sample with host := [quiet] }).outReady = false ∧
      (hostDraw { sample with host := [expired] }).outReady = false ∧
      (hostDraw { sample with host := [expired] }).timedOut = true := by decide

/-- A word offered, or an output accepted, just as the timeout fires. -/
theorem witness_ReadyPartnerBeatsTimeout :
    let s : State := { sample with host := [⟨some 7, true, true⟩] }
    s.phase = .running ∧ writeTarget .position 9 s = .ok 9 ∧
      (hostDraw s).offered = some 7 ∧ (hostDraw s).timedOut = true ∧
      readParam .position 5 s = .ok (-1) ∧ (hostDraw s).outReady = true ∧
      (execState (.input pos 9) { sample with host := [expired] }).phase =
        .faulted .inputTimeout ∧
      (execState (.output pos 5) { sample with host := [expired] }).phase =
        .faulted .outputTimeout := by decide

/-- The three clauses of the jumps: targets 0 and -1 with the test true, and the test false. -/
theorem witness_JumpOutcomes :
    readParam imm.m0 1 sample = .ok 1 ∧ readParam imm.m0 0 sample = .ok 0 ∧
      readParam imm.m1 0 sample = .ok 0 ∧ readParam imm.m1 (-1) sample = .ok (-1) ∧
      (1 : Word) ≠ 0 ∧ 0 ≤ BitVec.toInt (0 : Word) ∧ BitVec.toInt (-1 : Word) < 0 := by decide

theorem witness_RelativeBaseOffsetOutcome :
    let s : State := { sample with rb := 9223372036854775807 }
    readParam .immediate 0 s = .ok 0 ∧ readParam .immediate 1 s = .ok 1 ∧
      s.rb.toInt + BitVec.toInt (0 : Word) ≤ Config.wmax ∧
      Config.wmin ≤ s.rb.toInt + BitVec.toInt (0 : Word) ∧
      Config.wmax < s.rb.toInt + BitVec.toInt (1 : Word) := by decide

/-- P3: the ADD at 0 rewrites the word at 4. -/
def rewriting : State := start [1001, 4, 1, 4, 1101, 6, 7, 11, 4, 11, 99, 0] []

theorem witness_StoreIsSeenByTheNextFetch :
    rewriting.Inv ∧ rewriting.phase = .running ∧
      fetchInstr rewriting = .ok (.add ⟨.position, .immediate, .position, .position⟩ 4 1 4) ∧
      step rewriting = .next (after rewriting) ∧ (after rewriting).phase = .running ∧
      (after rewriting).wait = .idle ∧
      writeAddress (.add ⟨.position, .immediate, .position, .position⟩ 4 1 4) rewriting =
        some (after rewriting).ip ∧
      decodeHead (memRead 4 (after rewriting)) =
        .ok (.mul, ⟨.immediate, .immediate, .position, .position⟩) :=
  ⟨inv_of_fresh (by decide) (by decide) (by decide) (by decide) rfl rfl rfl, rfl, by decide, rfl,
    by decide, by decide, by decide, by decide⟩

/-- The other four instructions that store where the next fetch reads, with what they store. -/
theorem witness_StoreIsSeenByTheNextFetch_others :
    (∀ c ∈ [(start [1102, 33, 3, 4] [], 4, 99), (start [1107, 0, 1, 4] [], 4, 1),
        (start [1108, 1, 1, 4] [], 4, 1), (start [3, 2] [offer 99], 2, (99 : Word))],
      (after c.1).phase = .running ∧ (after c.1).wait = .idle ∧ (after c.1).ip = c.2.1 ∧
        memRead c.2.1 (after c.1) = c.2.2) ∧
    writeAddress (.input pos 2) (start [3, 2] [offer 99]) = some 2 := by decide

theorem witness_StepKeepsTheStateInvariant :
    sample.Inv ∧ step sample = .next (after sample) := ⟨sample_inv, rfl⟩

/-- A state that holds at an Output. -/
def held : State := after (start [104, 5, 99] [quiet, accept])

theorem witness_StepKeepsTheHoldMeaning :
    held.HoldMatches ∧ held.wait = .output 5 ∧ step held = .next (after held) := by
  refine ⟨⟨fun h => ?_, fun v h => ?_⟩, by decide, rfl⟩
  · exact absurd h (by decide)
  · have hv : held.wait = .output 5 := by decide
    rw [hv] at h
    cases h
    exact ⟨⟨.immediate, .position, .position, .position⟩, 5, by decide, by decide⟩

theorem witness_ResetAndLoadMeetTheInvariants :
    load [99] State.reset = some (loadRequest [99] State.reset) := by decide

theorem witness_HeldStepIsRedoneWhole :
    let s := start [104, 5, 99] [quiet, accept]
    s.phase = .running ∧ step s = .next held ∧ held.wait ≠ .idle :=
  ⟨rfl, rfl, by decide⟩

theorem witness_LengthIsUnobservable :
    sample.Inv ∧ grown.Inv ∧ sample.SameWords grown ∧ step sample = .next (after sample) ∧
      step grown = .next (after grown) ∧ sample.len ≠ grown.len := by
  refine ⟨sample_inv, grown_inv, ⟨fun a => ?_, rfl, rfl, rfl, rfl, rfl, rfl, rfl⟩, rfl, rfl,
    by decide⟩
  rw [sample_inv.memRead_eq, grown_inv.memRead_eq]
  rfl

theorem witness_WaitBitsShowTheLastStep :
    let s := start [3, 10, 99] [quiet]
    s.phase = .running ∧ step s = .next (after s) ∧ (after s).wait = .input ∧
      (after (start [104, 5, 99] [quiet])).wait = .output 5 := ⟨rfl, rfl, by decide, by decide⟩

theorem witness_LoadEstablishesTheProgram :
    [109, -5, 99].length ≤ Config.memLimit ∧
      ∀ v ∈ ([109, -5, 99] : List Int), Config.wmin ≤ v ∧ v ≤ Config.wmax := by decide

theorem witness_LoadRefusesWhatIsNoProgram :
    ∃ v ∈ ([9223372036854775808] : List Int), v < Config.wmin ∨ Config.wmax < v := by decide

theorem witness_RunIsRepeatedStep :
    run 1 (start [99] []) = .next (after (start [99] [])) ∧
      (after (start [99] [])).phase ≠ .running := ⟨rfl, by decide⟩

theorem witness_PlacedInstructionIsTheNextRun :
    sample.Inv ∧ sample.ip + 4 ≤ Config.memLimit ∧
      decodeTableWord 64 99 = some (.halt pos) := ⟨sample_inv, by decide, by decide⟩

end Sys2Proof.Tests
end

section
/-! PROOFS. Growth of the store by `MemSlot` and the store after it (20_memory.md R29, R30,
R32). -/

namespace Sys2Proof.Machine

open Sys2Proof

/-! ### What `MemSlot` does to the words of the store (R29) -/

theorem memSlot_len_of_le {a : Nat} {s : State} (h : s.len ≤ a) : (memSlot a s).len = a + 1 := by
  rw [memSlot_len, if_pos h]

/-- `MemSlot` puts 0 at every address from the old `len` up to its own, and at no other. -/
theorem read_memSlot_mem (a j : Nat) (s : State) :
    Memory.read (memSlot a s).mem j =
      if s.len ≤ j ∧ j ≤ a then 0 else Memory.read s.mem j := by
  rw [memSlot_mem]
  split
  · exact Memory.read_zeroFill s.mem s.len a j
  · next h => rw [if_neg (by omega)]

/-- The frame of `MemSlot`: `mem` and `len` are all it can change. -/
theorem memSlot_eq_update_mem_len (a : Nat) (s : State) :
    memSlot a s = { s with mem := (memSlot a s).mem, len := (memSlot a s).len } := by
  unfold memSlot
  split <;> rfl

/-! ### A parameter past the limit (R32) -/

theorem writeTarget_of_fault {m : Mode} {raw : Word} {s : State} {x : Int} {k : FaultKind}
    (h : paramAddress m raw s.rb = some x) (hx : addr x = .error k) :
    writeTarget m raw s = .error k := by
  simp [writeTarget, h, hx]

theorem writeParam_of_fault {m : Mode} {raw : Word} {s : State} {x : Int} {k : FaultKind}
    (h : paramAddress m raw s.rb = some x) (hx : addr x = .error k) :
    writeParam m raw s = .error k :=
  writeParam_error_iff.2 (writeTarget_of_fault h hx)

/-! ### The obligations -/

/-- Settles O9, from the words, the `len` and the frame of `MemSlot`. -/
theorem memSlotGrowsAndZeroFills : Obligations.MemSlotGrowsAndZeroFills := by
  intro s a
  refine ⟨fun hgrow => ⟨memSlot_len_of_le hgrow, fun j hlo hhi => ?_, fun j hj => ?_⟩,
    memSlot_of_lt, fun x => memRead_after_memSlot x a s, memSlot_eq_update_mem_len a s⟩
  · rw [read_memSlot_mem, if_pos ⟨hlo, hhi⟩]
  · rw [read_memSlot_mem, if_neg (by omega)]

/-- Settles O10: the first `MemSlot` leaves its address held, so the second does nothing. -/
theorem memSlotIsIdempotentAndUnseen : Obligations.MemSlotIsIdempotentAndUnseen :=
  fun s a x => ⟨memSlot_again a s, memRead_after_memSlot x a s⟩

/-- Settles O11: a store after its `MemSlot` is seen at its own address alone
(`memRead_store`), so the gap still reads as it did past the old `len`; past the limit the
address check refuses both parameters. -/
theorem growOnWriteZeroOnRead : Obligations.GrowOnWriteZeroOnRead := by
  constructor
  · intro s a v hs hlen _
    have hread : ∀ j, memRead j (memWrite a v (memSlot a s)) = if j = a then v else memRead j s :=
      memRead_store hs.memCanonical a v
    refine ⟨memRead_past_len hlen, memSlot_len_of_le hlen, ?_, fun j hlo hhi => ?_, fun j hj => ?_⟩
    · rw [hread, if_pos rfl]
    · rw [hread, if_neg (Nat.ne_of_lt hhi), memRead_past_len hlo]
    · rw [hread, if_neg hj]
  · intro m raw s x hx hlimit
    have hfault : addr x = .error .memoryBounds := addr_beyond hlimit
    exact ⟨readParam_of_fault hx hfault, writeParam_of_fault hx hfault⟩

end Sys2Proof.Machine
end

section
/-! PROOFS. The decoder's checks in their order, and the decimal fields of a word that passes
them (30_encoding.md R45, R50, R51). -/

namespace Sys2Proof

/-! ### The mode digits of the four slots -/

theorem forall_slot {P : Nat → Prop} :
    (∀ k, k < Config.modeSlots → P k) ↔ P 0 ∧ P 1 ∧ P 2 ∧ P 3 := by
  simp only [Config.modeSlots, Nat.forall_lt_succ_right, Nat.not_lt_zero, false_imp_iff,
    implies_true, true_and, and_assoc]

theorem exists_mode_of_digit_le {n : Nat} (h : n ≤ 2) : ∃ m : Mode, m.digit = n := by
  match n, h with
  | 0, _ => exact ⟨.position, rfl⟩
  | 1, _ => exact ⟨.immediate, rfl⟩
  | 2, _ => exact ⟨.relative, rfl⟩

/-- `modesOf_ok_iff` by slots: the mode tag of slot `k` is decimal digit `2 + k`. -/
theorem modesOf_ok_iff_slot {n : Nat} {m : Modes} :
    modesOf n = .ok m ↔
      (∀ k, k < Config.modeSlots → (m.slot k).digit = digit n (2 + k)) ∧ n / 10 ^ 6 = 0 := by
  simp only [modesOf_ok_iff, forall_slot, Modes.slot, and_assoc]

theorem exists_modesOf_iff {n : Nat} :
    (∃ m, modesOf n = .ok m) ↔
      (∀ k, k < Config.modeSlots → digit n (2 + k) ≤ 2) ∧ n / 10 ^ 6 = 0 := by
  constructor
  · rintro ⟨m, hm⟩
    obtain ⟨hslot, hrest⟩ := modesOf_ok_iff_slot.1 hm
    exact ⟨fun k hk => hslot k hk ▸ (m.slot k).digit_le, hrest⟩
  · rintro ⟨hle, hrest⟩
    obtain ⟨h0, h1, h2, h3⟩ := forall_slot.1 hle
    obtain ⟨m0, h0⟩ := exists_mode_of_digit_le h0
    obtain ⟨m1, h1⟩ := exists_mode_of_digit_le h1
    obtain ⟨m2, h2⟩ := exists_mode_of_digit_le h2
    obtain ⟨m3, h3⟩ := exists_mode_of_digit_le h3
    exact ⟨⟨m0, m1, m2, m3⟩, modesOf_ok_iff.2 ⟨h0, h1, h2, h3, hrest⟩⟩

/-! ### The decoder's answer, check by check (R51) -/

theorem opcodeOf_eq_none {n : Nat} (h : ¬ ∃ op : Opcode, op.code = n) : opcodeOf n = none :=
  Option.eq_none_iff_forall_ne_some.2 fun op hop => h ⟨op, code_of_opcodeOf hop⟩

theorem decodeHead_of_neg {w : Word} (h : w.toInt < 0) : decodeHead w = .error .negativeWord :=
  if_pos h

theorem decodeHead_of_no_code {w : Word} (h : 0 ≤ w.toInt)
    (hcode : ¬ ∃ op : Opcode, op.code = w.toNat % 100) : decodeHead w = .error .unknownCode := by
  simp [decodeHead, Int.not_lt.2 h, opcodeOf_eq_none hcode]

theorem decodeHead_of_modes_error {w : Word} {op : Opcode} {e : DecodeError} (h : 0 ≤ w.toInt)
    (hcode : op.code = w.toNat % 100) (hmodes : modesOf w.toNat = .error e) :
    decodeHead w = .error e := by
  simp [decodeHead, Int.not_lt.2 h, ← hcode, opcodeOf_code, hmodes]

/-! ### The word as the sum of its fields (R45) -/

theorem toInt_eq_toNat_of_nonneg {w : Word} (h : 0 ≤ w.toInt) : w.toInt = w.toNat :=
  BitVec.toInt_eq_toNat_of_lt (BitVec.toInt_pos_iff.1 h)

/-- A number of at most six decimal digits, from its two lowest and its four highest. -/
theorem sum_of_digits {n : Nat} (h : n / 10 ^ 6 = 0) :
    n % 100 + 100 * digit n 2 + 1000 * digit n 3 + 10000 * digit n 4 + 100000 * digit n 5 = n := by
  simp only [digit]
  omega

theorem headNumber_of_decodeHead {w : Word} {op : Opcode} {m : Modes}
    (h : decodeHead w = .ok (op, m)) : headNumber op m = w.toNat := by
  obtain ⟨-, hcode, hmodes⟩ := decodeHead_ok_iff.1 h
  obtain ⟨h0, h1, h2, h3, hrest⟩ := modesOf_ok_iff.1 hmodes
  rw [headNumber, hcode, h0, h1, h2, h3]
  exact sum_of_digits hrest

end Sys2Proof

namespace Sys2Proof.Machine

open Sys2Proof

/-! ### The faults of the decoder (R55) -/

/-- Every branch of `modesOf` that refuses names a slot's digit or the digits above slot 3. -/
theorem decodeFault_of_modesOf {n : Nat} {e : DecodeError} (h : modesOf n = .error e) :
    decodeFault e = .unknownParameterMode := by
  unfold modesOf at h
  repeat' split at h
  all_goals cases h
  all_goals rfl

/-- Past the sign and the opcode code, a word whose mode tags cannot be read faults
`UnknownParameterMode`, whether a slot's digit or a digit above them is at fault. -/
theorem decodeHead_mode_fault {w : Word} {op : Opcode} (h : 0 ≤ w.toInt)
    (hcode : op.code = w.toNat % 100) (hmodes : ¬ ∃ m, modesOf w.toNat = .ok m) :
    ∃ e, decodeHead w = .error e ∧ decodeFault e = .unknownParameterMode := by
  cases he : modesOf w.toNat with
  | error e => exact ⟨e, decodeHead_of_modes_error h hcode he, decodeFault_of_modesOf he⟩
  | ok m => exact absurd ⟨m, he⟩ hmodes

theorem fetchInstr_of_decode_error {s : State} {e : DecodeError} (h : s.ip < Config.memLimit)
    (hd : decodeHead (memRead s.ip s) = .error e) : fetchInstr s = .error (decodeFault e) := by
  simp only [fetchInstr, fetchWord_of_lt h, hd]

/-! ### The obligations -/

/-- Settles O4, from the fields a decoded word has (`decodeHead_ok_iff`, `modesOf_ok_iff_slot`) and
their sum. -/
theorem legalWordIsSumOfItsFields : Obligations.LegalWordIsSumOfItsFields := by
  intro w op m h
  obtain ⟨hnonneg, hcode, hmodes⟩ := decodeHead_ok_iff.1 h
  obtain ⟨hslot, hrest⟩ := modesOf_ok_iff_slot.1 hmodes
  refine ⟨?_, hcode, hslot, hrest⟩
  calc w.toInt = (w.toNat : Int) := toInt_eq_toNat_of_nonneg hnonneg
    _ = (headNumber op m : Nat) := by rw [headNumber_of_decodeHead h]

/-- Settles O5: the sign is the decoder's first check, and a decoding error is taken by the step
in the state it found. -/
theorem negativeWordIsUnknownOpcode : Obligations.NegativeWordIsUnknownOpcode := by
  intro s hrun hip hneg
  have hd : decodeHead (memRead s.ip s) = .error .negativeWord := decodeHead_of_neg hneg
  refine ⟨fun op m hok => ?_, step_of_fetch_fault hrun (fetchInstr_of_decode_error hip hd)⟩
  rw [hd] at hok
  cases hok

/-- Settles O6, a lemma for each check; the last three clauses turn on when the mode tags can be
read (`exists_modesOf_iff`). -/
theorem decodeAnswersByItsChecks : Obligations.DecodeAnswersByItsChecks := by
  intro w legalCode legalModes
  refine ⟨fun hneg => ⟨_, decodeHead_of_neg hneg, rfl⟩,
    fun hnonneg hcode => ⟨_, decodeHead_of_no_code hnonneg hcode, rfl⟩, ?_, ?_, ?_⟩
  · rintro hnonneg ⟨op, hop⟩ hmodes
    exact decodeHead_mode_fault hnonneg hop fun hm => hmodes (exists_modesOf_iff.1 hm).1
  · rintro hnonneg ⟨op, hop⟩ - hbig
    refine decodeHead_mode_fault hnonneg hop fun hm => ?_
    have hrest : w.toNat / 10 ^ 6 = 0 := (exists_modesOf_iff.1 hm).2
    rw [toInt_eq_toNat_of_nonneg hnonneg] at hbig
    omega
  · rintro hnonneg ⟨op, hop⟩ hmodes hsmall
    rw [toInt_eq_toNat_of_nonneg hnonneg] at hsmall
    obtain ⟨m, hm⟩ := exists_modesOf_iff.2 ⟨hmodes, by omega⟩
    exact ⟨op, m, decodeHead_ok_iff.2 ⟨hnonneg, hop, hm⟩, hop, (modesOf_ok_iff_slot.1 hm).1⟩

end Sys2Proof.Machine
end

section
/-! PROOFS. The execution cycle (40_execution_cycle.md): read resolution (R65), fetch and operand
fetch (R63, R64), the stopped engine (R62), the advance of `ip` (R71) and precise faults (R72). -/

namespace Sys2Proof.Machine

open Sys2Proof

/-! ### Read parameters that name an address (R65) -/

theorem paramAddress_of_addressing {m : Mode} {raw rb : Word} {x : Int}
    (h : (m = .position ∧ x = raw.toInt) ∨ (m = .relative ∧ x = raw.toInt + rb.toInt)) :
    paramAddress m raw rb = some x := by
  rcases h with ⟨rfl, rfl⟩ | ⟨rfl, rfl⟩ <;> rfl

theorem addr_of_range {x : Int} (h0 : 0 ≤ x) (h : x < (Config.memLimit : Int)) :
    addr x = .ok x.toNat :=
  addr_ok_iff.2 ⟨h0, h, rfl⟩

theorem memRead_of_lt {a : Nat} {s : State} (h : a < s.len) : memRead a s = Memory.read s.mem a :=
  if_pos h

/-! ### The instruction fetched (R63, R64) -/

theorem fetchInstr_beyond {s : State} (h : Config.memLimit ≤ s.ip) :
    fetchInstr s = .error .memoryBounds := by
  simp only [fetchInstr, fetchWord_beyond h]

/-- The instruction word and all `N` raw words lie below the limit. -/
theorem fetchInstr_of_decode_ok {s : State} {op : Opcode} {m : Modes}
    (hd : decodeHead (memRead s.ip s) = .ok (op, m)) (h : s.ip + op.arity < Config.memLimit) :
    fetchInstr s =
      .ok (build op m ((List.range op.arity).map fun k => memRead (s.ip + 1 + k) s)) := by
  have hip : s.ip < Config.memLimit := by omega
  have hraws : s.ip + 1 + op.arity ≤ Config.memLimit := by omega
  simp only [fetchInstr, fetchWord_of_lt hip, hd, fetchRaws_of_le hraws]

/-- The instruction word lies below the limit, its last raw word does not. -/
theorem fetchInstr_of_raws_beyond {s : State} {op : Opcode} {m : Modes}
    (hip : s.ip < Config.memLimit) (hd : decodeHead (memRead s.ip s) = .ok (op, m))
    (h : Config.memLimit ≤ s.ip + op.arity) : fetchInstr s = .error .memoryBounds := by
  have hraws : fetchRaws s (s.ip + 1) op.arity = .error .memoryBounds :=
    fetchRaws_beyond (by omega) hip
  simp only [fetchInstr, fetchWord_of_lt hip, hd, hraws]

/-- Code 0 is no opcode, so memory past `len` is no instruction. -/
theorem decodeHead_zero : decodeHead 0 = .error .unknownCode := rfl

theorem step_eq_execState {s t : State} {i : Instr} (hrun : s.phase = .running)
    (hf : fetchInstr s = .ok i) (h : step s = .next t) : t = execState i s := by
  rw [step_of_fetch hrun hf, exec_eq_next] at h
  cases h
  rfl

/-! ### Where a completed instruction leaves `ip` (R71) -/

theorem arity_of_threeOperand {op : Opcode} (h : op ∈ [Opcode.add, .mul, .lt, .eq]) :
    op.arity = 3 := by
  simp only [List.mem_cons, List.not_mem_nil, or_false] at h
  rcases h with rfl | rfl | rfl | rfl <;> rfl

/-- A jump that has not faulted has resolved both parameters, and its test picks the target or the
advance. -/
theorem conditionalJump_ip {taken : Word → Bool} {m : Modes} {p0 p1 : Word} {s : State}
    (h : (conditionalJump taken m p0 p1 s).phase = .running) :
    ∃ c g, readParam m.m0 p0 s = .ok c ∧ readParam m.m1 p1 s = .ok g ∧
      (taken c = true → ((conditionalJump taken m p0 p1 s).ip : Int) = g.toInt) ∧
      (taken c = false → (conditionalJump taken m p0 p1 s).ip = s.ip + 3) := by
  rcases conditionalJump_cases taken m p0 p1 s with
    ⟨k, e⟩ | ⟨c, g, hc, hg, htaken, h0, e⟩ | ⟨c, g, hc, hg, htaken, e⟩ <;> rw [e] at h ⊢
  · simp at h
  · exact ⟨c, g, hc, hg, fun _ => Int.toNat_of_nonneg h0, by simp [htaken]⟩
  · exact ⟨c, g, hc, hg, by simp [htaken], fun _ => rfl⟩

theorem ExecForm.ip_eq_and_halt_of_halted {i : Instr} {s t : State} (h : ExecForm i s t)
    (hrun : s.phase = .running) (ht : t.phase = .halted) : t.ip = s.ip ∧ ∃ m, i = .halt m := by
  cases h with
  | halted m hi => exact ⟨rfl, m, hi⟩
  | fault | overflow | inputTimeout | outputTimeout => simp at ht
  | store | taken | inputHold | delivered | outputHold | jumped | notJumped | based =>
    simp [hrun] at ht

/-- An instruction that is no jump, neither faulted nor halted nor held, advances over its own
words. -/
theorem ExecForm.ip_of_completed {i : Instr} {s t : State} (h : ExecForm i s t)
    (ht : t.phase = .running) (hwait : t.wait = .idle)
    (hjt : ∀ m p0 p1, i ≠ .jt m p0 p1) (hjf : ∀ m p0 p1, i ≠ .jf m p0 p1) :
    t.ip = s.ip + 1 + i.opcode.arity := by
  cases h with
  | store d r hw hd ha hv => simp [arity_of_threeOperand ha, Nat.add_assoc]
  | taken m p d v hi => simp [hi, Instr.opcode, Opcode.arity, Opcode.shape]
  | delivered m p v hi => simp [hi, Instr.opcode, Opcode.arity, Opcode.shape]
  | based m p v r hi => simp [hi, Instr.opcode, Opcode.arity, Opcode.shape]
  | jumped m p0 p1 c g hc hg h0 hi => simp [hjt, hjf] at hi
  | notJumped m p0 p1 c g hc hg hi => simp [hjt, hjf] at hi
  | fault | overflow | inputTimeout | outputTimeout | halted => simp at ht
  | inputHold | outputHold => simp at hwait

/-! ### `len` after resolution, and faults (R72) -/

theorem grownLen_of_fetch_fault {s : State} {k : FaultKind} (hf : fetchInstr s = .error k) :
    grownLen s = s.len := by
  simp only [grownLen, hf]

theorem grownLen_of_no_write {s : State} {i : Instr} (hf : fetchInstr s = .ok i)
    (hw : writeAddress i s = none) : grownLen s = s.len := by
  simp only [grownLen, hf, hw]

/-- The growth of resolution is that of the write parameter's `MemSlot`. -/
theorem grownLen_of_write {s : State} {i : Instr} {d : Nat} (hf : fetchInstr s = .ok i)
    (hw : writeAddress i s = some d) : grownLen s = (memSlot d s).len := by
  simp only [grownLen, hf, hw, memSlot_len_eq_max]

theorem writeAddress_input {m : Modes} {p : Word} {s : State} {d : Nat}
    (h : writeTarget m.m0 p s = .ok d) : writeAddress (.input m p) s = some d := by
  simp only [writeAddress, h]

/-- What a step that ends in a fault leaves as it was, and `len` (R72). -/
structure State.FaultFrame (s t : State) : Prop where
  ip : t.ip = s.ip
  rb : t.rb = s.rb
  words : ∀ x, memRead x t = memRead x s
  len : t.len = grownLen s
  ports : t.ports = s.ports

/-- The fault forms: the fault is taken in the state as it was, after the `MemSlot` of a write
parameter, or after the draw of a wait that timed out; none of these touches the frame. -/
theorem ExecForm.faultFrame {i : Instr} {s t : State} {k : FaultKind} (h : ExecForm i s t)
    (hrun : s.phase = .running) (hf : fetchInstr s = .ok i) (ht : t.phase = .faulted k) :
    s.FaultFrame t := by
  cases h with
  | fault k' hk hw => exact ⟨rfl, rfl, fun _ => rfl, (grownLen_of_no_write hf hw).symm, rfl⟩
  | overflow d hw =>
    have hlen := grownLen_of_write hf hw
    constructor <;> simp [hlen, memRead_after_memSlot]
  | inputTimeout m p d hi hd =>
    subst hi
    have hlen := grownLen_of_write hf (writeAddress_input hd)
    constructor <;> simp [hlen, memRead_after_memSlot]
  | outputTimeout m p v hi =>
    subst hi
    have hlen := grownLen_of_no_write hf rfl
    constructor <;> simp [hlen]
  | halted => simp at ht
  | store | taken | inputHold | delivered | outputHold | jumped | notJumped | based =>
    simp [hrun] at ht

/-! ### The obligations -/

/-- Settles O13: Position and Relative each name an exact address, and the address check and
`MemRead` split its range. -/
theorem readParameterResolution : Obligations.ReadParameterResolution := by
  intro raw s
  refine ⟨readParam_immediate raw s, fun m x hx => ?_⟩
  have haddr : paramAddress m raw s.rb = some x := paramAddress_of_addressing hx
  refine ⟨fun hneg => readParam_of_fault haddr (addr_neg hneg),
    fun hbig => readParam_of_fault haddr (addr_beyond hbig), fun h0 hlimit => ?_⟩
  have hread : readParam m raw s = .ok (memRead x.toNat s) :=
    readParam_of_address haddr (addr_of_range h0 hlimit)
  refine ⟨fun hlen => ?_, fun hlen => ?_⟩
  · rw [hread, memRead_past_len (by omega)]
  · rw [hread, memRead_of_lt (by omega)]

/-- Settles O18. -/
theorem stoppedEngineDoesNothing : Obligations.StoppedEngineDoesNothing := by
  intro s hstopped
  refine step_of_not_running fun hrun => ?_
  rcases hstopped with h | ⟨k, h⟩ <;> simp [hrun] at h

/-- Settles O19: `ip` is never negative, so the fetch can fault at the limit only, and past `len`
it reads 0, which is no opcode's code. -/
theorem instructionFetch : Obligations.InstructionFetch := by
  intro s hrun
  refine ⟨fetchWord_of_lt, fun hip => step_of_fetch_fault hrun (fetchInstr_beyond hip),
    fun hlen hip => ?_, fun hfault => ?_⟩
  · have hzero : memRead s.ip s = 0 := memRead_past_len hlen
    have hd : decodeHead (memRead s.ip s) = .error .unknownCode := by rw [hzero, decodeHead_zero]
    exact ⟨by rw [fetchWord_of_lt hip, hzero],
      step_of_fetch_fault hrun (fetchInstr_of_decode_error hip hd)⟩
  · by_cases hip : s.ip < Config.memLimit
    · simp [fetchWord_of_lt hip] at hfault
    · simp [fetchWord_beyond (Nat.not_lt.1 hip)] at hfault

/-- Settles O20: whether the last raw word lies below the limit decides what is fetched. -/
theorem operandFetchPrecedesResolution : Obligations.OperandFetchPrecedesResolution := by
  intro s op m hrun hip hd
  have hbelow (h : s.ip + op.arity < Config.memLimit) :=
    step_of_fetch hrun (fetchInstr_of_decode_ok hd h)
  refine ⟨fun hbeyond _ => step_of_fetch_fault hrun (fetchInstr_of_raws_beyond hip hd hbeyond),
    hbelow, ?_, fun a => memRead_past_len⟩
  rintro rfl
  exact hbelow hip

/-- Settles O22: the two jumps by their test (`conditionalJump_ip`), every other instruction by its
form. -/
theorem pointerAfterCompletedStep : Obligations.PointerAfterCompletedStep := by
  intro s t i hrun hf hstep
  obtain rfl := step_eq_execState hrun hf hstep
  have hform : ExecForm i s (execState i s) := execState_form i s
  refine ⟨hform.ip_eq_and_halt_of_halted hrun, fun ht hwait => ?_⟩
  split
  · simpa [truth] using conditionalJump_ip ht
  · simpa [truth] using conditionalJump_ip ht
  · next hjt hjf => exact hform.ip_of_completed ht hwait hjt hjf

/-- Settles O23: a fault of fetch is taken in the state as it was, a fault of the instruction keeps
the frame of its form. -/
theorem faultIsPrecise : Obligations.FaultIsPrecise := by
  intro s t k hrun hstep ht
  have hframe : s.FaultFrame t := by
    rcases step_cases hstep with ⟨hstop, -⟩ | ⟨-, k', hf, rfl⟩ | ⟨-, i, hf, rfl⟩
    · exact absurd hrun hstop
    · exact ⟨rfl, rfl, fun _ => rfl, (grownLen_of_fetch_fault hf).symm, rfl⟩
    · exact (execState_form i s).faultFrame hrun hf ht
  exact ⟨hframe.ip, hframe.rb, hframe.words, hframe.len, hframe.ports⟩

end Sys2Proof.Machine
end

section
/-! PROOFS. Input and Output against a ready partner (42_io.md R83). -/

namespace Sys2Proof.Machine

open Sys2Proof

/-! ### The transfer (R84, R85): the readiness decides, `timed_out` is not looked at -/

theorem execState_input_of_offered {m : Modes} {p v : Word} {s : State} {d : Nat}
    (hd : writeTarget m.m0 p s = .ok d) (hv : (hostDraw s).offered = some v) :
    execState (.input m p) s =
      advance 2 (memWrite d v (record (.taken v) (takeDraw (memSlot d s)))) := by
  rw [execState_input_wait hd]
  simp only [inputWait, hostDraw_memSlot, hv]

theorem execState_output_of_outReady {m : Modes} {p v : Word} {s : State}
    (hv : readParam m.m0 p s = .ok v) (hready : (hostDraw s).outReady = true) :
    execState (.output m p) s = advance 2 (record (.delivered v) (takeDraw s)) := by
  rw [execState_output_wait hv, outputWait, if_pos hready]

/-! ### The timeout -/

/-- A timeout fault comes from the timeout form of its port alone, whose guard is that the partner
is not ready; the faults of resolution and of handlers are of other kinds. -/
theorem ExecForm.not_ready_of_timeout {i : Instr} {s t : State} (h : ExecForm i s t)
    (hrun : s.phase = .running) :
    (t.phase = .faulted .inputTimeout → (hostDraw s).offered = none) ∧
      (t.phase = .faulted .outputTimeout → (hostDraw s).outReady = false) := by
  cases h with
  | inputTimeout m p d hi hd hnone => exact ⟨fun _ => hnone, by simp⟩
  | outputTimeout m p v hi hv hready => exact ⟨by simp, fun _ => hready⟩
  | fault k hk => simp [hk]
  | overflow | halted => simp
  | store | taken | inputHold | delivered | outputHold | jumped | notJumped | based => simp [hrun]

/-! ### The obligation -/

/-- Settles O40: with the partner ready the state left is the transfer's, and a timeout fault tells
that it was not ready (`ExecForm.not_ready_of_timeout`). -/
theorem readyPartnerBeatsTimeout : Obligations.ReadyPartnerBeatsTimeout := by
  intro m p0 s t hrun
  simp only [exec_eq_next, Host.Outcome.next.injEq]
  constructor
  · rintro rfl
    refine ⟨fun d v hd hv => ?_, ((execState_form _ s).not_ready_of_timeout hrun).1⟩
    rw [execState_input_of_offered hd hv]
    simp [hrun]
  · rintro rfl
    refine ⟨fun v hv hready => ?_, ((execState_form _ s).not_ready_of_timeout hrun).2⟩
    rw [execState_output_of_outReady hv hready]
    simp [hrun]

end Sys2Proof.Machine
end

section
/-! PROOFS. `LOAD`: when it is accepted (70_reset_and_hazards.md R112) and the state it leaves
(R111, R113). -/

namespace Sys2Proof.Machine

open Sys2Proof

/-! ### When a program is accepted (R112) -/

theorem loadable_iff {program : List Int} :
    loadable program = true ↔ program.length ≤ Config.memLimit ∧
      ∀ v ∈ program, Config.wmin ≤ v ∧ v ≤ Config.wmax := by
  simp [loadable, isWord_iff]

theorem load_of_not_loadable {program : List Int} (h : ¬ loadable program = true) (s : State) :
    load program s = none := if_neg h

theorem loadRequest_of_load_none {program : List Int} {s : State} (h : load program s = none) :
    loadRequest program s = s := by simp only [loadRequest, h]

/-! ### The state an accepted `LOAD` leaves (R111, R113) -/

/-- The state `LOAD` leaves (`load_of_loadable`): of the state found, only the host's draws stay. -/
def State.loaded (program : List Int) (s : State) : State :=
  { State.reset with
    mem := Memory.ofWords 0 (program.map Word.ofInteger)
    len := program.length
    host := s.host
    freeDraws := s.freeDraws }

theorem load_of_loadable {program : List Int} (h : loadable program = true) (s : State) :
    load program s = some (s.loaded program) := if_pos h

@[simp] theorem loaded_mem (program : List Int) (s : State) :
    (s.loaded program).mem = Memory.ofWords 0 (program.map Word.ofInteger) := rfl

theorem read_loaded (program : List Int) (s : State) (a : Nat) :
    Memory.read (s.loaded program).mem a =
      (program.map Word.ofInteger).getD a Memory.unlisted := by
  simpa using Memory.read_ofWords (program.map Word.ofInteger) 0 a

theorem memRead_loaded {program : List Int} {a : Nat} (h : a < program.length) (s : State) :
    memRead a (s.loaded program) = Word.ofInteger program[a] := by
  rw [memRead_of_lt h, read_loaded]
  simp [h]

theorem read_loaded_past_length {program : List Int} {a : Nat} (h : program.length ≤ a)
    (s : State) : Memory.read (s.loaded program).mem a = 0 := by
  rw [read_loaded, List.getD_eq_default _ _ (by simpa using h), Memory.unlisted]

/-! ### The obligations -/

/-- Settles O53: below its length the program's values are words, so each reads back as the integer
it was (`toInt_ofInteger`); the other rows of R113 are fields of the loaded state. -/
theorem loadEstablishesTheProgram : Obligations.LoadEstablishesTheProgram := by
  intro program s hlen hwords
  refine ⟨_, load_of_loadable (loadable_iff.2 ⟨hlen, hwords⟩) s, fun a ha => ?_,
    fun a ha => read_loaded_past_length ha s, rfl, rfl, rfl, rfl, rfl, rfl, rfl⟩
  have hword : isWord program[a] = true := isWord_iff.2 (hwords _ (List.getElem_mem ha))
  rw [memRead_loaded ha, toInt_ofInteger hword, List.getD_eq_getElem _ _ ha]

/-- Settles O54: each refusal breaks one half of `loadable_iff`; the empty program leaves `ip` at
`len`, where the fetch reads 0 and its decoding faults (`instructionFetch`). -/
theorem loadRefusesWhatIsNoProgram : Obligations.LoadRefusesWhatIsNoProgram := by
  refine ⟨fun program s hbad => ?_, fun s => ?_⟩
  · have hrefused : ¬ loadable program = true := by
      rw [loadable_iff]
      rintro ⟨hlen, hwords⟩
      rcases hbad with hlong | ⟨v, hv, hout⟩
      · exact absurd hlen (Nat.not_le.2 hlong)
      · have := hwords v hv
        omega
    have hnone : load program s = none := load_of_not_loadable hrefused s
    exact ⟨hnone, loadRequest_of_load_none hnone⟩
  · obtain ⟨-, -, hpast, -⟩ := instructionFetch (s.loaded []) rfl
    have hip : 0 < Config.memLimit := by decide
    obtain ⟨-, hstep⟩ := hpast (Nat.le_refl 0) hip
    exact ⟨_, _, load_of_loadable rfl s, hstep, rfl, rfl⟩

end Sys2Proof.Machine
end

section
/-! PROOFS. The encoder against the decoder (30_encoding.md R44 to R52). -/

namespace Sys2Proof

/-! ### The instruction word (R45) -/

theorem toNat_encodeHead (op : Opcode) (m : Modes) : (encodeHead op m).toNat = headNumber op m := by
  have := headNumber_lt op m
  rw [encodeHead, BitVec.toNat_ofNat, Nat.mod_eq_of_lt (by omega)]

theorem toInt_encodeHead (op : Opcode) (m : Modes) : (encodeHead op m).toInt = headNumber op m := by
  have := headNumber_lt op m
  rw [BitVec.toInt_eq_toNat_of_lt (by rw [toNat_encodeHead]; omega), toNat_encodeHead]

/-- The weighted sum has the code below 100 and each mode digit in its own decimal place. -/
theorem modesOf_headNumber (op : Opcode) (m : Modes) : modesOf (headNumber op m) = .ok m := by
  have := op.code_lt
  have := m.m0.digit_le
  have := m.m1.digit_le
  have := m.m2.digit_le
  have := m.m3.digit_le
  simp only [modesOf_ok_iff, digit, headNumber]
  omega

theorem decodeHead_encodeHead (op : Opcode) (m : Modes) :
    decodeHead (encodeHead op m) = .ok (op, m) := by
  have hcode : op.code = headNumber op m % 100 := by
    have := op.code_lt
    simp only [headNumber]
    omega
  rw [decodeHead_ok_iff, toInt_encodeHead, toNat_encodeHead]
  exact ⟨Int.natCast_nonneg _, hcode, modesOf_headNumber op m⟩

/-- A word that decodes is the one word its fields encode to. -/
theorem encodeHead_of_decodeHead {w : Word} {op : Opcode} {m : Modes}
    (h : decodeHead w = .ok (op, m)) : encodeHead op m = w :=
  BitVec.eq_of_toNat_eq ((toNat_encodeHead op m).trans (headNumber_of_decodeHead h))

/-! ### The raw words (R44, R48) -/

theorem raws_build_eq_map (op : Opcode) (m : Modes) (ws : List Word) :
    (build op m ws).raws = (List.range op.arity).map fun k => ws.getD k 0 := by
  cases op <;> rfl

/-- An instruction takes its `N` raw words off the front of the words it is built from. -/
theorem raws_build {op : Opcode} {ws : List Word} (m : Modes) (h : op.arity ≤ ws.length) :
    (build op m ws).raws = ws.take op.arity := by
  rw [raws_build_eq_map]
  refine List.ext_getElem (by simp [h]) fun k hk hk' => ?_
  have hlt : k < ws.length := by
    simp only [List.length_map, List.length_range] at hk
    omega
  simp [hlt]

/-- Everything `decode` accepts: an instruction word with the instruction's own fields, then its
raw words, then what is left over. -/
theorem decode_ok_iff {ws rest : List Word} {i : Instr} :
    decode ws = .ok (i, rest) ↔
      ∃ w, ws = w :: (i.raws ++ rest) ∧ decodeHead w = .ok (i.opcode, i.modes) := by
  constructor
  · intro h
    unfold decode at h
    split at h
    · cases h
    · next w tail =>
      split at h
      · cases h
      · next op m hd =>
        split at h
        · cases h
        · next hlen =>
          obtain ⟨rfl, rfl⟩ : build op m tail = i ∧ tail.drop op.arity = rest := by simpa using h
          refine ⟨w, ?_, by rwa [Instr.opcode_build, Instr.modes_build]⟩
          rw [raws_build m (Nat.not_lt.1 hlen), List.take_append_drop]
  · rintro ⟨w, rfl, hd⟩
    simp [decode, hd, ← Instr.raws_length, build_self]

/-! ### The obligations on the encoding -/

/-- Settles O1: the instruction word decodes to its own opcode and mode tags
(`decodeHead_encodeHead`), and the raw words follow it. -/
theorem decodeOfEncodeIsTheInstruction : Obligations.DecodeOfEncodeIsTheInstruction := by
  intro i rest
  exact decode_ok_iff.2 ⟨encodeHead i.opcode i.modes, rfl, decodeHead_encodeHead _ _⟩

/-- Settles O2: the instruction word is the encoding of its fields (`encodeHead_of_decodeHead`). -/
theorem encodeOfDecodeIsTheWords : Obligations.EncodeOfDecodeIsTheWords := by
  intro ws i rest h
  obtain ⟨w, rfl, hd⟩ := decode_ok_iff.1 h
  rw [encode, encodeHead_of_decodeHead hd, List.cons_append]

/-- Settles O3, by running the decoder on the five words. -/
theorem specExampleWordsDecode : Obligations.SpecExampleWordsDecode := by
  unfold Obligations.SpecExampleWordsDecode
  decide

end Sys2Proof
end

section
/-! PROOFS. What the assembler emits for an instruction, and which operands it accepts
(30_encoding.md R57). -/

namespace Sys2Proof.Machine

open Sys2Proof

/-! ### The mode tags of the operands -/

theorem asmModes_slot {os : List AsmOperand} (h : os.length ≤ Config.maxArity) (k : Nat) :
    (asmModes os).slot k = (os.map AsmOperand.mode).getD k .position := by
  match k with
  | 0 | 1 | 2 | 3 => rfl
  | k + 4 =>
    have hlength : (os.map AsmOperand.mode).length ≤ 3 := by simpa [Config.maxArity] using h
    exact (List.getD_eq_default _ _ hlength).trans (List.getD_eq_default _ _ (by omega)).symm

theorem asmModes_slot_of_operand {os : List AsmOperand} (h : os.length ≤ Config.maxArity) {k : Nat}
    {o : AsmOperand} (ho : os[k]? = some o) : (asmModes os).slot k = o.mode := by
  simp [asmModes_slot h, List.getD_eq_getElem?_getD, ho]

theorem asmModes_slot_unused {os : List AsmOperand} (h : os.length ≤ Config.maxArity) {k : Nat}
    (hk : os.length ≤ k) : (asmModes os).slot k = .position := by
  rw [asmModes_slot h]
  exact List.getD_eq_default _ _ (by simpa using hk)

theorem asmModes_unusedZero {os : List AsmOperand} (h : os.length ≤ Config.maxArity) :
    (asmModes os).unusedZero os.length = true := by
  simp only [Modes.unusedZero, List.all_eq_true, Bool.or_eq_true, decide_eq_true_eq, beq_iff_eq]
  intro k _
  rcases Nat.lt_or_ge k os.length with hk | hk
  · exact .inl hk
  · exact .inr (asmModes_slot_unused h hk)

/-! ### The write operand -/

theorem writable_eq_true_iff {m : Mode} : m.writable = true ↔ m ≠ .immediate := by
  cases m <;> simp [Mode.writable]

/-- Well formed is that no slot of a write parameter is Immediate. -/
theorem wellFormed_build_iff (op : Opcode) (m : Modes) (ws : List Word) :
    (build op m ws).wellFormed = true ↔
      ∀ k, op.shape[k]? = some .write → m.slot k ≠ .immediate := by
  cases op with
  | add | mul | lt | eq =>
    refine writable_eq_true_iff.trans ⟨fun h k hk => ?_, fun h => h 2 rfl⟩
    match k with
    | 2 => exact h
    | 0 | 1 | _ + 3 => cases hk
  | input =>
    refine writable_eq_true_iff.trans ⟨fun h k hk => ?_, fun h => h 0 rfl⟩
    match k with
    | 0 => exact h
    | _ + 1 => cases hk
  | output | arb =>
    refine ⟨fun _ k hk => ?_, fun _ => rfl⟩
    match k with
    | 0 | _ + 1 => cases hk
  | jt | jf =>
    refine ⟨fun _ k hk => ?_, fun _ => rfl⟩
    match k with
    | 0 | 1 | _ + 2 => cases hk
  | halt => exact ⟨fun _ k hk => (by cases hk), fun _ => rfl⟩

/-! ### The numbers of the operands -/

/-- The operands' integers are those of some words exactly where each is a word. -/
theorem exists_words_iff {labels : List (Label × Nat)} {os : List AsmOperand} :
    (∃ ws : List Word, (os.map fun o => o.integer labels) = ws.map fun w => some w.toInt) ↔
      ∀ o ∈ os, ∃ n, o.integer labels = some n ∧ Config.wmin ≤ n ∧ n ≤ Config.wmax := by
  constructor
  · rintro ⟨ws, hws⟩ o ho
    have hmem : o.integer labels ∈ ws.map fun w => some w.toInt :=
      hws ▸ List.mem_map_of_mem ho
    obtain ⟨w, -, hw⟩ := List.mem_map.1 hmem
    exact ⟨w.toInt, hw.symm, isWord_iff.1 (isWord_toInt w)⟩
  · intro h
    refine ⟨os.map fun o => Word.ofInteger ((o.integer labels).getD 0), ?_⟩
    rw [List.map_map]
    refine List.map_congr_left fun o ho => ?_
    obtain ⟨n, hn, hword⟩ := h o ho
    simp [hn, toInt_ofInteger (isWord_iff.2 hword)]

/-- The raw words of an accepted instruction are the words of its operands. -/
theorem raws_of_integers {labels : List (Label × Nat)} {op : Opcode} {os : List AsmOperand}
    {ws : List Word} (hlen : os.length = op.arity)
    (hws : (os.map fun o => o.integer labels) = ws.map fun w => some w.toInt) (m : Modes) :
    (build op m ws).raws = ws := by
  have hlength : os.length = ws.length := by simpa using congrArg List.length hws
  rw [raws_build m (by omega), List.take_of_length_le (by omega)]

theorem integer_of_integers {labels : List (Label × Nat)} {os : List AsmOperand} {ws : List Word}
    (hws : (os.map fun o => o.integer labels) = ws.map fun w => some w.toInt) {k : Nat}
    {o : AsmOperand} (ho : os[k]? = some o) :
    ∃ r, ws[k]? = some r ∧ o.integer labels = some r.toInt := by
  have hk := congrArg (·[k]?) hws
  simp only [List.getElem?_map, ho, Option.map_some] at hk
  obtain ⟨r, hr, he⟩ := Option.map_eq_some_iff.1 hk.symm
  exact ⟨r, hr, he.symm⟩

/-! ### The obligation -/

/-- Settles O7. `asmInstr_eq_some_iff` says what is accepted and emitted; the operands' modes are
the slots' tags (`asmModes_slot_of_operand`), their numbers the raw words (`integer_of_integers`),
and the words decode back because encoded words do. -/
theorem assembledInstructionIsCanonical : Obligations.AssembledInstructionIsCanonical := by
  intro labels op os
  have harity : op.arity ≤ Config.maxArity := op.arity_le
  refine ⟨fun i hi => ?_, ?_⟩
  · obtain ⟨hlen, ws, hws, hwf, rfl⟩ := asmInstr_eq_some_iff.1 hi
    have hmax : os.length ≤ Config.maxArity := hlen ▸ harity
    have hm3 : (asmModes os).m3 = .position := asmModes_slot_unused hmax (k := 3) hmax
    have hcanonical : (build op (asmModes os) ws).canonical = true := by
      rw [Instr.canonical, hwf, build_modes, build_opcode, ← hlen, asmModes_unusedZero hmax]
      rfl
    refine ⟨build_opcode .., hcanonical, ?_, fun k o ho => ⟨?_, ?_⟩, ⟨_, rfl, ?_⟩, ?_⟩
    · rw [Instr.raws_length, build_opcode, hlen]
    · rw [build_modes, asmModes_slot_of_operand hmax ho]
    · rw [raws_of_integers hlen hws]
      exact integer_of_integers hws ho
    · rw [toInt_encodeHead, headNumber, build_opcode, build_modes, hm3]
      rfl
    · simpa using decodeOfEncodeIsTheInstruction (build op (asmModes os) ws) []
  · simp only [asmInstr_eq_some_iff, wellFormed_build_iff]
    constructor
    · rintro ⟨i, hlen, ws, hws, hwrite, -⟩
      refine ⟨hlen, exists_words_iff.1 ⟨ws, hws⟩, fun k o ho hk => ?_⟩
      rw [← asmModes_slot_of_operand (hlen ▸ harity) ho]
      exact hwrite k hk
    · rintro ⟨hlen, hwords, hwrite⟩
      obtain ⟨ws, hws⟩ := exists_words_iff.2 hwords
      refine ⟨_, hlen, ws, hws, fun k hk => ?_, rfl⟩
      have hlt : k < os.length := hlen ▸ (List.getElem?_eq_some_iff.1 hk).1
      have ho : os[k]? = some os[k] := List.getElem?_eq_getElem hlt
      rw [asmModes_slot_of_operand (hlen ▸ harity) ho]
      exact hwrite k _ ho hk

end Sys2Proof.Machine
end

section
/-! PROOFS. The address check (20_memory.md R27), stores as updates of the whole state (sections 1
and 7), and write resolution with the order of its faults (40_execution_cycle.md R66, R67). -/

namespace Sys2Proof.Machine

open Sys2Proof

/-! ### Stores to the canonical list (log 2) -/

theorem Memory.read_write {m : Memory} (h : Memory.wf m = true) (a : Nat) (v : Word) (x : Nat) :
    Memory.read (Memory.write m a v) x = if x = a then v else Memory.read m x := by
  split
  · next hx => rw [hx, Memory.read_write_same h]
  · next hx => exact Memory.read_write_other m v hx

theorem Memory.write_comm {m : Memory} (h : Memory.wf m = true) {a b : Nat} (hab : a ≠ b)
    (v w : Word) :
    Memory.write (Memory.write m b w) a v = Memory.write (Memory.write m a v) b w := by
  have hb := Memory.wf_write h b w
  have ha := Memory.wf_write h a v
  refine Memory.ext_of_wf (Memory.wf_write hb a v) (Memory.wf_write ha b w) fun x => ?_
  rw [Memory.read_write hb, Memory.read_write ha, Memory.read_write h, Memory.read_write h]
  split
  · next hx => rw [if_neg (hx ▸ hab)]
  · rfl

theorem Memory.write_write {m : Memory} (h : Memory.wf m = true) (a : Nat) (v w : Word) :
    Memory.write (Memory.write m a w) a v = Memory.write m a v := by
  have ha := Memory.wf_write h a w
  refine Memory.ext_of_wf (Memory.wf_write ha a v) (Memory.wf_write h a v) fun x => ?_
  rw [Memory.read_write ha, Memory.read_write h, Memory.read_write h]
  split <;> rfl

theorem Memory.write_read {m : Memory} (h : Memory.wf m = true) (a : Nat) :
    Memory.write m a (Memory.read m a) = m := by
  refine Memory.ext_of_wf (Memory.wf_write h a _) h fun x => ?_
  rw [Memory.read_write h]
  split
  · next hx => rw [hx]
  · rfl

/-- A store changes the list alone, so an equality of lists is one of states. -/
theorem memWrite_eq_update (a : Nat) (v : Word) (s : State) :
    memWrite a v s = { s with mem := Memory.write s.mem a v } := rfl

/-! ### Write parameters (R66) -/

theorem writeTarget_immediate (raw : Word) (s : State) :
    writeTarget .immediate raw s = .error .invalidWriteTarget := rfl

theorem writeTarget_of_address {m : Mode} {raw : Word} {s : State} {x : Int} {a : Nat}
    (h : paramAddress m raw s.rb = some x) (ha : addr x = .ok a) :
    writeTarget m raw s = .ok a := by
  simp [writeTarget, h, ha]

/-! ### Faults of resolution, by shape (R67) -/

theorem exec_of_resolveRRW_error {m : Modes} {p0 p1 p2 : Word} {s : State} {k : FaultKind}
    (h : resolveRRW m p0 p1 p2 s = .error k) :
    ∀ i ∈ [Instr.add m p0 p1 p2, .mul m p0 p1 p2, .lt m p0 p1 p2, .eq m p0 p1 p2],
      exec i s = .next (takeFault k s) := by
  intro i hi
  simp only [List.mem_cons, List.not_mem_nil, or_false] at hi
  rcases hi with rfl | rfl | rfl | rfl <;>
    exact congrArg Host.Outcome.next (threeOperand_resolution_fault h)

theorem exec_of_resolveRR_error {m : Modes} {p0 p1 : Word} {s : State} {k : FaultKind}
    (h : resolveRR m p0 p1 s = .error k) :
    ∀ i ∈ [Instr.jt m p0 p1, .jf m p0 p1], exec i s = .next (takeFault k s) := by
  intro i hi
  simp only [List.mem_cons, List.not_mem_nil, or_false] at hi
  rcases hi with rfl | rfl <;> simp [exec_eq_next, conditionalJump, h]

theorem exec_of_readParam_error {m : Modes} {p0 : Word} {s : State} {k : FaultKind}
    (h : readParam m.m0 p0 s = .error k) :
    ∀ i ∈ [Instr.output m p0, .arb m p0], exec i s = .next (takeFault k s) := by
  intro i hi
  simp only [List.mem_cons, List.not_mem_nil, or_false] at hi
  rcases hi with rfl | rfl
  · rw [exec_eq_next, execState_output_fault h]
  · simp [exec_eq_next, offsetBase, h]

/-! ### The obligations -/

/-- Settles O8, a lemma for each range. -/
theorem addressCheckOfEveryInteger : Obligations.AddressCheckOfEveryInteger := by
  intro x
  exact ⟨addr_neg, fun _ hbig => addr_beyond hbig,
    fun h0 hlimit => ⟨x.toNat, addr_of_range h0 hlimit, Int.toNat_of_nonneg h0⟩⟩

/-- Settles O12: canonical lists with the same contents are the same list. -/
theorem storesLeaveNothingButTheirWords : Obligations.StoresLeaveNothingButTheirWords := by
  intro s a b v w hs _ _
  have hwf := hs.memCanonical
  simp only [memWrite_eq_update, hs.memRead_eq]
  refine ⟨fun hab => ?_, ?_, ?_⟩
  · rw [Memory.write_comm hwf hab]
  · rw [Memory.write_write hwf]
  · rw [Memory.write_read hwf]

/-- Settles O14: Position and Relative each name an exact address, and the address check splits its
range. -/
theorem writeParameterResolution : Obligations.WriteParameterResolution := by
  intro raw s
  refine ⟨rfl, fun m x hx => ?_⟩
  have haddr : paramAddress m raw s.rb = some x := paramAddress_of_addressing hx
  exact ⟨fun hneg => writeParam_of_fault haddr (addr_neg hneg),
    fun hbig => writeParam_of_fault haddr (addr_beyond hbig),
    fun h0 hlimit => writeParam_ok_iff.2
      ⟨writeTarget_of_address haddr (addr_of_range h0 hlimit), rfl⟩⟩

/-- Settles O15: the first fault in slot order is the answer of the shape's resolution. -/
theorem firstResolutionFaultIsTaken : Obligations.FirstResolutionFaultIsTaken := by
  intro m p0 p1 p2 s k
  refine ⟨fun h0 i hi => ?_, fun a h0 h1 i hi => ?_, fun a b h0 h1 h2 => ?_, fun h => ?_⟩
  · have hRR : resolveRR m p0 p1 s = .error k := resolveRR_error_iff.2 (.inl h0)
    rcases List.mem_append.1 (show i ∈ [_, _, _, _] ++ [_, _, _, _] from hi) with hi | hi
    · exact exec_of_resolveRRW_error (resolveRRW_error_iff.2 (.inl hRR)) i hi
    · rcases List.mem_append.1 (show i ∈ [_, _] ++ [_, _] from hi) with hi | hi
      · exact exec_of_resolveRR_error hRR i hi
      · exact exec_of_readParam_error h0 i hi
  · have hRR : resolveRR m p0 p1 s = .error k := resolveRR_error_iff.2 (.inr ⟨a, h0, h1⟩)
    rcases List.mem_append.1 (show i ∈ [_, _, _, _] ++ [_, _] from hi) with hi | hi
    · exact exec_of_resolveRRW_error (resolveRRW_error_iff.2 (.inl hRR)) i hi
    · exact exec_of_resolveRR_error hRR i hi
  · have hRR : resolveRR m p0 p1 s = .ok (a, b) := resolveRR_ok_iff.2 ⟨h0, h1⟩
    exact exec_of_resolveRRW_error (resolveRRW_error_iff.2 (.inr ⟨a, b, hRR, h2⟩))
  · rw [exec_eq_next, execState_input_fault h]

/-- Settles O16: the Immediate write parameter is the fault of the last slot
(`firstResolutionFaultIsTaken`). -/
theorem immediateWriteTargetFaults : Obligations.ImmediateWriteTargetFaults := by
  intro m p0 p1 p2 a b s
  obtain ⟨-, -, hwrite, hinput⟩ := firstResolutionFaultIsTaken m p0 p1 p2 s .invalidWriteTarget
  refine ⟨fun hm h0 h1 i hi => ⟨?_, ?_⟩, fun hm => ⟨?_, ?_⟩⟩
  · simp only [List.mem_cons, List.not_mem_nil, or_false] at hi
    rcases hi with rfl | rfl | rfl | rfl <;> simp [Instr.wellFormed, hm, Mode.writable]
  · exact hwrite a b h0 h1 (hm ▸ writeTarget_immediate p2 s) i hi
  · simp [Instr.wellFormed, hm, Mode.writable]
  · exact hinput (hm ▸ writeTarget_immediate p0 s)

end Sys2Proof.Machine
end

section
/-! PROOFS. What a step runs and what it leaves unchanged (40_execution_cycle.md sections 1 and 5;
10_state.md sections 5 and 7; 42_io.md section 1). -/

namespace Sys2Proof.Machine

open Sys2Proof

/-! ### The window at `ip` and the instruction fetched -/

theorem fetchWindow_length (s : State) :
    (fetchWindow s).length = min 4 (Config.memLimit - s.ip) := by
  simp [fetchWindow]

theorem fetchWindow_getElem {s : State} {k : Nat} (h : k < (fetchWindow s).length) :
    (fetchWindow s)[k] = memRead (s.ip + k) s := by
  simp [fetchWindow]

/-- What the decoder reads from the window is what the cycle fetches: an instruction whose words
are in the window lies below the limit. -/
theorem fetchInstr_of_decode_fetchWindow {s : State} {i : Instr} {rest : List Word}
    (h : decode (fetchWindow s) = .ok (i, rest)) : fetchInstr s = .ok i := by
  obtain ⟨w, hw, hd⟩ := decode_ok_iff.1 h
  have hlength := fetchWindow_length s
  have hget {k : Nat} (hk : k < (fetchWindow s).length) :
      (w :: (i.raws ++ rest))[k]'(hw ▸ hk) = memRead (s.ip + k) s := by
    rw [← fetchWindow_getElem hk]
    simp only [hw]
  have hcount : (fetchWindow s).length = i.opcode.arity + rest.length + 1 := by
    rw [hw, List.length_cons, List.length_append, Instr.raws_length]
  have hhead : w = memRead s.ip s := hget (k := 0) (by omega)
  have hraws : i.raws = (List.range i.opcode.arity).map fun k => memRead (s.ip + 1 + k) s := by
    refine List.ext_getElem (by simp [Instr.raws_length]) fun k hk hk' => ?_
    have hlt : k < i.opcode.arity := by simpa using hk'
    have := hget (k := k + 1) (by omega)
    simpa [hk, Nat.add_assoc, Nat.add_comm 1 k] using this
  rw [fetchInstr_of_decode_ok (hhead ▸ hd) (by omega), ← hraws]
  simpa using build_self i []

/-! ### `len` after a step (R29, R66) -/

theorem len_le_grownLen (s : State) : s.len ≤ grownLen s := by
  cases hf : fetchInstr s with
  | error k => rw [grownLen_of_fetch_fault hf]
  | ok i =>
    cases hw : writeAddress i s with
    | none => rw [grownLen_of_no_write hf hw]
    | some d => rw [grownLen_of_write hf hw]; exact len_le_memSlot_len d s

/-- Each form either has no write address and leaves `len`, or did its `MemSlot` and no more. -/
theorem ExecForm.len_eq_grownLen {i : Instr} {s t : State} (h : ExecForm i s t)
    (hf : fetchInstr s = .ok i) : t.len = grownLen s := by
  have hnone (hw : writeAddress i s = none) : s.len = grownLen s :=
    (grownLen_of_no_write hf hw).symm
  have hsome {d : Nat} (hw : writeAddress i s = some d) : (memSlot d s).len = grownLen s :=
    (grownLen_of_write hf hw).symm
  cases h with
  | fault k hk hw => exact hnone hw
  | overflow d hw | store d r hw => exact hsome hw
  | taken m p d v hi hd | inputTimeout m p d hi hd | inputHold m p d hi hd =>
    simpa using hsome (hi ▸ writeAddress_input hd)
  | delivered m p v hi | outputTimeout m p v hi | outputHold m p v hi =>
    simpa using hnone (hi ▸ rfl)
  | jumped m p0 p1 c g hc hg h0 hi =>
    exact hnone (by rcases hi with ⟨rfl, -⟩ | ⟨rfl, -⟩ <;> rfl)
  | notJumped m p0 p1 c g hc hg hi =>
    exact hnone (by rcases hi with ⟨rfl, -⟩ | ⟨rfl, -⟩ <;> rfl)
  | based m p v r hi | halted m hi => exact hnone (hi ▸ rfl)

/-! ### What each form leaves unchanged -/

theorem eq_of_memRead_memWrite_ne {s u : State} {d x : Nat} {v : Word}
    (hu : memRead x u = memRead x s) (hx : memRead x (memWrite d v u) ≠ memRead x s) : x = d := by
  by_contra hne
  exact hx ((memRead_memWrite_other u hne v).trans hu)

/-- Only a store and an input transfer change a word, each at its own write address. -/
theorem ExecForm.of_memRead_ne {i : Instr} {s t : State} {x : Nat} (h : ExecForm i s t)
    (hx : memRead x t ≠ memRead x s) :
    writeAddress i s = some x ∧ i.opcode ∈ [Opcode.add, .mul, .lt, .eq, .input] := by
  cases h with
  | store d r hw hd ha =>
    obtain rfl : x = d := eq_of_memRead_memWrite_ne (memRead_after_memSlot x d s) hx
    exact ⟨hw, List.mem_append_left [Opcode.input] ha⟩
  | taken m p d v hi hd =>
    have hu : memRead x (record (.taken v) (takeDraw (memSlot d s))) = memRead x s := by
      simp [memRead_after_memSlot]
    obtain rfl : x = d := eq_of_memRead_memWrite_ne hu hx
    subst hi
    exact ⟨writeAddress_input hd, by simp [Instr.opcode]⟩
  | fault | overflow | inputTimeout | inputHold | delivered | outputTimeout | outputHold | jumped
  | notJumped | based | halted => simp [memRead_after_memSlot] at hx

theorem ExecForm.of_rb_ne {i : Instr} {s t : State} (h : ExecForm i s t) (hrb : t.rb ≠ s.rb) :
    ∃ m p, i = .arb m p := by
  cases h with
  | based m p v r hi => exact ⟨m, p, hi⟩
  | fault | overflow | store | taken | inputTimeout | inputHold | delivered | outputTimeout
  | outputHold | jumped | notJumped | halted => simp at hrb

theorem ExecForm.of_phase_ne {i : Instr} {s t : State} (h : ExecForm i s t)
    (hp : t.phase ≠ s.phase) :
    (t.phase = .halted ∧ ∃ m, i = .halt m) ∨ ∃ k, t.phase = .faulted k := by
  cases h with
  | halted m hi => exact .inl ⟨rfl, m, hi⟩
  | fault | overflow | inputTimeout | outputTimeout => exact .inr ⟨_, rfl⟩
  | store | taken | inputHold | delivered | outputHold | jumped | notJumped | based => simp at hp

theorem ExecForm.ports_cases {i : Instr} {s t : State} (h : ExecForm i s t) :
    t.ports = s.ports ∨
    (∃ m p v, i = .input m p ∧ t.ports = s.ports ++ [.taken v] ∧
      (hostDraw s).offered = some v) ∨
    (∃ m p v, i = .output m p ∧ t.ports = s.ports ++ [.delivered v] ∧
      readParam m.m0 p s = .ok v ∧ (hostDraw s).outReady = true) ∨
    (∃ m, i = .halt m ∧ t.ports = s.ports ++ [.endOfStream]) := by
  cases h with
  | taken m p d v hi hd ho => exact .inr (.inl ⟨m, p, v, hi, by simp, ho⟩)
  | delivered m p v hi hr ho => exact .inr (.inr (.inl ⟨m, p, v, hi, by simp, hr, ho⟩))
  | halted m hi => exact .inr (.inr (.inr ⟨m, hi, by simp⟩))
  | fault | overflow | store | inputTimeout | inputHold | outputTimeout | outputHold | jumped
  | notJumped | based => exact .inl (by simp)

/-! ### Under other draws (R61, log 4) -/

/-- The state with other draws of the host to come. -/
def State.withDraws (ds : List HostDraw) (n : Nat) (s : State) : State :=
  { s with host := ds, freeDraws := n }

section withDraws

variable (ds : List HostDraw) (n : Nat) (s : State)

theorem memSlot_withDraws (d : Nat) :
    memSlot d (s.withDraws ds n) = (memSlot d s).withDraws ds n := by
  unfold memSlot
  by_cases h : s.len ≤ d <;> simp [State.withDraws, h]

theorem readParam_withDraws (m : Mode) (raw : Word) :
    readParam m raw (s.withDraws ds n) = readParam m raw s := rfl

theorem writeTarget_withDraws (m : Mode) (raw : Word) :
    writeTarget m raw (s.withDraws ds n) = writeTarget m raw s := rfl

theorem resolveRR_withDraws (m : Modes) (p0 p1 : Word) :
    resolveRR m p0 p1 (s.withDraws ds n) = resolveRR m p0 p1 s := rfl

theorem threeOperand_withDraws (f : Word → Word → Except FaultKind Word) (m : Modes)
    (p0 p1 p2 : Word) :
    threeOperand f m p0 p1 p2 (s.withDraws ds n) =
      (threeOperand f m p0 p1 p2 s).withDraws ds n := by
  rcases threeOperand_cases f m p0 p1 p2 s with
    ⟨k, hk, e⟩ | ⟨a, b, d, k, ha, hb, hd, hk, e⟩ | ⟨a, b, d, r, ha, hb, hd, hr, e⟩ <;> rw [e]
  · have hk' : resolveRRW m p0 p1 p2 (s.withDraws ds n) = .error k := by
      rwa [resolveRRW_error_iff] at hk ⊢
    rw [threeOperand_resolution_fault hk']
    rfl
  · rw [threeOperand_handler_fault (s := s.withDraws ds n) ha hb hd hk, memSlot_withDraws]
    rfl
  · rw [threeOperand_stores (s := s.withDraws ds n) ha hb hd hr, memSlot_withDraws]
    rfl

theorem conditionalJump_withDraws (taken : Word → Bool) (m : Modes) (p0 p1 : Word) :
    conditionalJump taken m p0 p1 (s.withDraws ds n) =
      (conditionalJump taken m p0 p1 s).withDraws ds n := by
  simp only [conditionalJump, resolveRR_withDraws]
  split
  · rfl
  · split
    · split <;> rfl
    · rfl

theorem offsetBase_withDraws (mode : OverflowMode) (m : Modes) (p0 : Word) :
    offsetBase mode m p0 (s.withDraws ds n) = (offsetBase mode m p0 s).withDraws ds n := by
  have hrb : (s.withDraws ds n).rb = s.rb := rfl
  simp only [offsetBase, readParam_withDraws, hrb]
  split
  · rfl
  · split <;> rfl

theorem execState_withDraws {i : Instr} (h : isPortInstr i = false) :
    execState i (s.withDraws ds n) = (execState i s).withDraws ds n := by
  cases i with
  | add m p0 p1 p2 | mul m p0 p1 p2 => exact threeOperand_withDraws ds n s _ m p0 p1 p2
  | lt m p0 p1 p2 =>
    exact threeOperand_withDraws ds n s (fun a b => .ok (lessResult a b)) m p0 p1 p2
  | eq m p0 p1 p2 =>
    exact threeOperand_withDraws ds n s (fun a b => .ok (equalResult a b)) m p0 p1 p2
  | jt m p0 p1 | jf m p0 p1 => exact conditionalJump_withDraws ds n s _ m p0 p1
  | arb m p => exact offsetBase_withDraws ds n s _ m p
  | halt m => rfl
  | input m p | output m p => cases h

end withDraws

/-! ### The obligations -/

/-- Settles O17: the window's instruction is the one fetched
(`fetchInstr_of_decode_fetchWindow`). -/
theorem stepRunsTheDecodedInstruction : Obligations.StepRunsTheDecodedInstruction := by
  intro s i rest hrun h
  exact step_of_fetch hrun (fetchInstr_of_decode_fetchWindow h)

/-- Settles O21: a stopped engine stays, a fault of fetch is an entry, and `exec` always answers a
next state. -/
theorem everyStepAnswersNext : Obligations.EveryStepAnswersNext := by
  intro s
  by_cases hrun : s.phase = .running
  · cases hf : fetchInstr s with
    | error k => exact ⟨_, step_of_fetch_fault hrun hf⟩
    | ok i => exact ⟨_, (step_of_fetch hrun hf).trans (exec_eq_next i s)⟩
  · exact ⟨s, step_of_not_running hrun⟩

/-- Settles O24: by the form of the instruction (`ExecForm.len_eq_grownLen`); a fault of fetch grows
nothing. -/
theorem lengthGrowsAtResolutionOnly : Obligations.LengthGrowsAtResolutionOnly := by
  intro s t hrun hstep
  have hlen : t.len = grownLen s := by
    rcases step_cases hstep with ⟨hstop, -⟩ | ⟨-, k, hf, rfl⟩ | ⟨-, i, hf, rfl⟩
    · exact absurd hrun hstop
    · exact (grownLen_of_fetch_fault hf).symm
    · exact (execState_form i s).len_eq_grownLen hf
  exact ⟨hlen, hlen ▸ len_le_grownLen s⟩

/-- Settles O25, by the form of the instruction (`ExecForm.of_memRead_ne`). -/
theorem onlyTheWriteAddressChanges : Obligations.OnlyTheWriteAddressChanges := by
  intro s t x hstep hx
  rcases step_cases hstep with ⟨-, rfl⟩ | ⟨-, k, -, rfl⟩ | ⟨hrun, i, hf, rfl⟩
  · exact absurd rfl hx
  · exact absurd rfl hx
  · exact ⟨hrun, i, hf, (execState_form i s).of_memRead_ne hx⟩

/-- Settles O26, by the form of the instruction (`ExecForm.of_rb_ne`). -/
theorem onlyRelativeBaseOffsetChangesBase : Obligations.OnlyRelativeBaseOffsetChangesBase := by
  intro s t hstep hrb
  rcases step_cases hstep with ⟨-, rfl⟩ | ⟨-, k, -, rfl⟩ | ⟨hrun, i, hf, rfl⟩
  · exact absurd rfl hrb
  · exact absurd rfl hrb
  · obtain ⟨m, p, rfl⟩ := (execState_form i s).of_rb_ne hrb
    exact ⟨hrun, m, p, hf⟩

/-- Settles O27: a fault of fetch faults, and a form that changes the phase is Halt's or a fault
(`ExecForm.of_phase_ne`). -/
theorem phaseChangesTwoWays : Obligations.PhaseChangesTwoWays := by
  intro s t hstep hp
  rcases step_cases hstep with ⟨-, rfl⟩ | ⟨hrun, k, -, rfl⟩ | ⟨hrun, i, hf, rfl⟩
  · exact absurd rfl hp
  · exact ⟨hrun, .inr ⟨k, rfl⟩⟩
  · refine ⟨hrun, ((execState_form i s).of_phase_ne hp).imp_left ?_⟩
    rintro ⟨ht, m, rfl⟩
    exact ⟨ht, m, hf⟩

/-- Settles O28, by the form of the instruction (`ExecForm.ports_cases`). -/
theorem portEventsAppendInOrder : Obligations.PortEventsAppendInOrder := by
  intro s t hstep
  rcases step_cases hstep with ⟨-, rfl⟩ | ⟨-, k, -, rfl⟩ | ⟨-, i, hf, rfl⟩
  · exact .inl rfl
  · exact .inl rfl
  · simpa only [hf, Except.ok.injEq] using (execState_form i s).ports_cases

/-- Settles O29: the shapes of the other eight instructions commute with a change of the draws
(`execState_withDraws`). -/
theorem otherInstructionsIgnoreTheHost : Obligations.OtherInstructionsIgnoreTheHost := by
  intro i s t ds n hi h
  rw [exec_eq_next] at h
  cases h
  exact (exec_eq_next i _).trans (congrArg _ (execState_withDraws ds n s hi))

end Sys2Proof.Machine
end

section
/-! PROOFS. The instructions one by one: what each stores, where it leaves `ip`, what it leaves
unchanged, and its faults (41_arithmetic.md to 45_base_and_halt.md). -/

namespace Sys2Proof.Machine

open Sys2Proof

/-! ### Results as words (40_execution_cycle.md R69) -/

theorem isWord_eq_false {r : Int} (h : r < Config.wmin ∨ Config.wmax < r) : isWord r = false := by
  rw [Bool.eq_false_iff, ne_eq, isWord_iff]
  omega

/-- The wrapped result is a remainder moved to start at `WMIN`. -/
theorem isWord_wrap (r : Int) : isWord (wrap r) = true := by
  rw [isWord_iff, wrap, wmin_eq, wmax_eq]
  simp only [Config.wordBits]
  omega

theorem wrap_congruent (r : Int) : r = wrap r + (r - Config.wmin) / 2 ^ 64 * 2 ^ 64 := by
  rw [wrap, wmin_eq]
  simp only [Config.wordBits]
  omega

/-- Settles O33: in the word range the result is its own word; outside it the wrapped result is a
word (`isWord_wrap`), congruent to it (`wrap_congruent`). -/
theorem narrowingUnderBothModes : Obligations.NarrowingUnderBothModes := by
  intro r
  refine ⟨fun hmin hmax mode => ?_, fun hout => ?_⟩
  · have hword : isWord r = true := isWord_iff.2 ⟨hmin, hmax⟩
    exact ⟨_, narrow_word hword, toInt_ofInteger hword⟩
  · have hno : isWord r = false := isWord_eq_false hout
    have hwrap : (Word.ofInteger (wrap r)).toInt = wrap r := toInt_ofInteger (isWord_wrap r)
    exact ⟨narrow_fault hno, _, narrow_wrap hno, hwrap, _, hwrap.symm ▸ wrap_congruent r⟩

/-! ### One store -/

/-- A store into memory that `MemSlot` has prepared, whatever the other fields have become since. -/
theorem stores_of_memWrite {s u t : State} (hs : s.Inv) {d : Nat} (hmem : u.mem = (memSlot d s).mem)
    (hlen : u.len = (memSlot d s).len) (v : Word) (htmem : t.mem = (memWrite d v u).mem)
    (htlen : t.len = u.len) : s.stores t d v.toInt := by
  have hread (x : Nat) : memRead x t = if x = d then v else memRead x s := by
    rw [← memRead_store hs.memCanonical d v x]
    exact memRead_congr (by rw [htmem, memWrite_mem, memWrite_mem, hmem])
      (by rw [htlen, hlen, memWrite_len]) x
  refine ⟨by rw [hread, if_pos rfl], fun x hx => by rw [hread, if_neg hx], ?_⟩
  rw [htlen, hlen, memSlot_len_eq_max]

/-! ### ADD, MUL, LT, EQ -/

/-- The completed three-operand instruction: one store and the advance by 4, nothing else. -/
theorem threeOperand_completes {f : Word → Word → Except FaultKind Word} {m : Modes}
    {p0 p1 p2 a b w : Word} {d : Nat} {s : State} {r : Int} (hs : s.Inv)
    (ha : readParam m.m0 p0 s = .ok a) (hb : readParam m.m1 p1 s = .ok b)
    (hd : writeTarget m.m2 p2 s = .ok d) (hf : f a b = .ok w) (hw : w.toInt = r) :
    ∃ t, (.next (threeOperand f m p0 p1 p2 s) : Host.Outcome State Fault Refusal) = .next t ∧
      s.stores t d r ∧ t.ip = s.ip + 4 ∧ t.rb = s.rb ∧ t.phase = s.phase ∧ t.wait = .idle ∧
      s.keepsPorts t := by
  refine ⟨_, congrArg _ (threeOperand_stores ha hb hd hf), ?_, ?_⟩
  · exact hw ▸ stores_of_memWrite hs rfl rfl w rfl rfl
  · simp [State.keepsPorts]

/-- Settles O30: the sum is a word, so it is the result (`threeOperand_completes`). -/
theorem addStoresTheSum : Obligations.AddStoresTheSum := by
  intro m p0 p1 p2 a b d s hs ha hb hd hmin hmax
  have hword : isWord (a.toInt + b.toInt) = true := isWord_iff.2 ⟨hmin, hmax⟩
  exact threeOperand_completes hs ha hb hd (narrow_word hword) (toInt_ofInteger hword)

/-- Settles O31: the product is a word, so it is the result (`threeOperand_completes`). -/
theorem multiplyStoresTheProduct : Obligations.MultiplyStoresTheProduct := by
  intro m p0 p1 p2 a b d s hs ha hb hd hmin hmax
  have hword : isWord (a.toInt * b.toInt) = true := isWord_iff.2 ⟨hmin, hmax⟩
  exact threeOperand_completes hs ha hb hd (narrow_word hword) (toInt_ofInteger hword)

/-- Settles O32: the handler faults after the `MemSlot` of resolution. -/
theorem arithmeticOverflowFaults : Obligations.ArithmeticOverflowFaults := by
  intro m p0 p1 p2 a b d s ha hb hd
  have hfault {f : Word → Word → Except FaultKind Word} {r : Int} (hf : f a b = narrow .fault r)
      (hout : r < Config.wmin ∨ Config.wmax < r) :
      threeOperand f m p0 p1 p2 s = takeFault .arithmeticOverflow (memSlot d s) :=
    threeOperand_handler_fault ha hb hd (hf.trans (narrow_fault (isWord_eq_false hout)))
  exact ⟨fun hout => congrArg _ (hfault rfl hout), fun hout => congrArg _ (hfault rfl hout)⟩

/-- Settles O34, from the value of the comparison (`toInt_lessResult`). -/
theorem lessThanStoresItsOutcome : Obligations.LessThanStoresItsOutcome := by
  intro m p0 p1 p2 a b d s hs ha hb hd
  exact threeOperand_completes (f := fun a b => .ok (lessResult a b)) hs ha hb hd rfl
    (toInt_lessResult a b)

/-- Settles O35, from the value of the comparison (`toInt_equalResult`). -/
theorem equalsStoresItsOutcome : Obligations.EqualsStoresItsOutcome := by
  intro m p0 p1 p2 a b d s hs ha hb hd
  exact threeOperand_completes (f := fun a b => .ok (equalResult a b)) hs ha hb hd rfl
    (toInt_equalResult a b)

/-! ### IN and OUT -/

theorem execState_input_of_not_offered {m : Modes} {p : Word} {s : State} {d : Nat}
    (hd : writeTarget m.m0 p s = .ok d) (hnone : (hostDraw s).offered = none) :
    execState (.input m p) s =
      if (hostDraw s).timedOut then takeFault .inputTimeout (takeDraw (memSlot d s))
      else hold .input (takeDraw (memSlot d s)) := by
  rw [execState_input_wait hd]
  simp only [inputWait, hostDraw_memSlot, hnone]

theorem execState_output_of_not_ready {m : Modes} {p v : Word} {s : State}
    (hv : readParam m.m0 p s = .ok v) (hready : (hostDraw s).outReady = false) :
    execState (.output m p) s =
      if (hostDraw s).timedOut then takeFault .outputTimeout (takeDraw s)
      else hold (.output v) (takeDraw s) := by
  simp [execState_output_wait hv, outputWait, hready]

theorem stores_of_taken {s : State} (hs : s.Inv) (d : Nat) (v : Word) :
    s.stores (advance 2 (memWrite d v (record (.taken v) (takeDraw (memSlot d s))))) d v.toInt :=
  stores_of_memWrite hs (u := record (.taken v) (takeDraw (memSlot d s))) (by simp) (by simp) v rfl
    rfl

/-- Settles O36: the state left is the transfer's (`execState_input_of_offered`). -/
theorem inputStoresTheOfferedWord : Obligations.InputStoresTheOfferedWord := by
  intro m p0 v d s hs hd hv
  refine ⟨_, exec_eq_next _ s, ?_⟩
  rw [execState_input_of_offered hd hv]
  refine ⟨stores_of_taken hs d v, ?_⟩
  simp [State.takesDraw]

/-- Settles O37: without a word the state left is the timeout's or the hold's
(`execState_input_of_not_offered`). -/
theorem inputHoldsOrTimesOut : Obligations.InputHoldsOrTimesOut := by
  intro m p0 d s hd hnone
  refine ⟨_, exec_eq_next _ s, ?_⟩
  rw [execState_input_of_not_offered hd hnone]
  cases (hostDraw s).timedOut <;>
    simp [memRead_after_memSlot, ← memSlot_len_eq_max, State.takesDraw]

/-- Settles O38: the state left is the transfer's (`execState_output_of_outReady`). -/
theorem outputDeliversItsWord : Obligations.OutputDeliversItsWord := by
  intro m p0 v s hv hready
  refine ⟨_, exec_eq_next _ s, ?_⟩
  rw [execState_output_of_outReady hv hready]
  simp [State.keepsMemory, State.takesDraw]

/-- Settles O39: with the host not ready the state left is the timeout's or the hold's
(`execState_output_of_not_ready`). -/
theorem outputHoldsOrTimesOut : Obligations.OutputHoldsOrTimesOut := by
  intro m p0 v s hv hready
  refine ⟨_, exec_eq_next _ s, ?_⟩
  rw [execState_output_of_not_ready hv hready]
  cases (hostDraw s).timedOut <;> simp [State.keepsMemory, State.takesDraw]

/-! ### JT and JF -/

section conditionalJump

variable {taken : Word → Bool} {m : Modes} {p0 p1 c g : Word} {s : State}
  (hc : readParam m.m0 p0 s = .ok c) (hg : readParam m.m1 p1 s = .ok g)
include hc hg

theorem conditionalJump_of_taken (ht : taken c = true) (h0 : 0 ≤ g.toInt) :
    conditionalJump taken m p0 p1 s = { s with ip := g.toNat, wait := .idle } := by
  have htarget : g.toInt.toNat = g.toNat := by rw [toInt_eq_toNat_of_nonneg h0, Int.toNat_natCast]
  simp [conditionalJump, resolveRR_ok_iff.2 ⟨hc, hg⟩, ht, Int.not_lt.2 h0, htarget, jumpTo]

theorem conditionalJump_of_negative_target (ht : taken c = true) (hneg : g.toInt < 0) :
    conditionalJump taken m p0 p1 s = takeFault .invalidAddressConversion s := by
  simp [conditionalJump, resolveRR_ok_iff.2 ⟨hc, hg⟩, ht, hneg]

theorem conditionalJump_of_not_taken (ht : taken c = false) :
    conditionalJump taken m p0 p1 s = { s with ip := s.ip + 3, wait := .idle } := by
  simp [conditionalJump, resolveRR_ok_iff.2 ⟨hc, hg⟩, ht, advance]

end conditionalJump

theorem truth_eq_true_iff {c : Word} : truth c = true ↔ c ≠ 0 := by simp [truth]

theorem truth_eq_false_iff {c : Word} : truth c = false ↔ c = 0 := by simp [truth]

/-- Settles O41, a lemma for each clause. -/
theorem jumpIfTrueOutcome : Obligations.JumpIfTrueOutcome := by
  intro m p0 p1 c g s hc hg
  simp only [exec_eq_next, execState_jt, Host.Outcome.next.injEq]
  exact ⟨fun h => conditionalJump_of_taken hc hg (truth_eq_true_iff.2 h),
    fun h => conditionalJump_of_negative_target hc hg (truth_eq_true_iff.2 h),
    fun h => conditionalJump_of_not_taken hc hg (truth_eq_false_iff.2 h)⟩

/-- Settles O42, a lemma for each clause. -/
theorem jumpIfFalseOutcome : Obligations.JumpIfFalseOutcome := by
  intro m p0 p1 c g s hc hg
  have htaken (h : c = 0) : (!truth c) = true := by rw [truth_eq_false_iff.2 h]; rfl
  have hnot (h : c ≠ 0) : (!truth c) = false := by rw [truth_eq_true_iff.2 h]; rfl
  simp only [exec_eq_next, execState_jf, Host.Outcome.next.injEq]
  exact ⟨fun h => conditionalJump_of_taken hc hg (htaken h),
    fun h => conditionalJump_of_negative_target hc hg (htaken h),
    fun h => conditionalJump_of_not_taken hc hg (hnot h)⟩

/-! ### ARB and HALT -/

/-- Settles O43: the operand is read with the old base, and the sum is narrowed as any result
is. -/
theorem relativeBaseOffsetOutcome : Obligations.RelativeBaseOffsetOutcome := by
  intro m p0 v s hv
  refine ⟨fun hmin hmax => ?_, fun hout => ?_⟩
  · have hword : isWord (s.rb.toInt + v.toInt) = true := isWord_iff.2 ⟨hmin, hmax⟩
    have hsum : sumResult Config.overflowMode s.rb v =
        .ok (Word.ofInteger (s.rb.toInt + v.toInt)) := narrow_word hword
    refine ⟨_, exec_eq_next _ s, ?_⟩
    simp [offsetBase, hv, hsum, toInt_ofInteger hword, State.keepsMemory, State.keepsPorts]
  · have hsum : sumResult Config.overflowMode s.rb v = .error .arithmeticOverflow :=
      narrow_fault (isWord_eq_false hout)
    simp [exec_eq_next, offsetBase, hv, hsum]

/-- Settles O44: Halt's state is `haltEngine`'s, and in phase Halted a step does nothing. -/
theorem haltEndsTheRun : Obligations.HaltEndsTheRun := by
  intro m s
  have hstop : (haltEngine s).phase ≠ .running := by simp
  exact ⟨haltEngine s, rfl, rfl, rfl, rfl, rfl, ⟨fun _ => rfl, rfl⟩, rfl, rfl, rfl,
    step_of_not_running hstop⟩

end Sys2Proof.Machine
end

section
/-! PROOFS. What every step keeps: the state invariant (10_state.md sections 3, 5 and 7), the
meaning of a hold (42_io.md R78, R79, R82), and that no step can observe `len` (10_state.md section
7). -/

namespace Sys2Proof.Machine

open Sys2Proof

/-! ### The state invariant -/

theorem writeAddress_lt {i : Instr} {s : State} {d : Nat} (h : writeAddress i s = some d) :
    d < Config.memLimit := by
  have hthree {m : Modes} {p0 p1 p2 : Word} {o : Resolved}
      (hr : resolveRRW m p0 p1 p2 s = .ok o) : o.d < Config.memLimit := by
    obtain ⟨-, -, hd, -⟩ := resolveRRW_ok_iff.1 hr
    exact writeTarget_lt hd
  cases i with
  | add m p0 p1 p2 | mul m p0 p1 p2 | lt m p0 p1 p2 | eq m p0 p1 p2 =>
    simp only [writeAddress] at h
    split at h
    · cases h
    · next o hr => cases h; exact hthree hr
  | input m p =>
    simp only [writeAddress] at h
    split at h
    · cases h
    · next d' hd => cases h; exact writeTarget_lt hd
  | output m p | jt m p0 p1 | jf m p0 p1 | arb m p | halt m => cases h

/-- The address space is smaller than the word range. -/
theorem natCast_le_wmax {a : Nat} (h : a ≤ Config.memLimit) : (a : Int) ≤ Config.wmax := by
  rw [wmax_eq]
  simp only [Config.memLimit] at h
  omega

theorem toNat_toInt_le_wmax (g : Word) : (g.toInt.toNat : Int) ≤ Config.wmax := by
  have := g.toInt_lt
  rw [wmax_eq]
  omega

/-- Every form keeps the invariant: the advance stays below the limit, where the whole instruction
was fetched, and a jump's target is a word. -/
theorem ExecForm.inv {i : Instr} {s t : State} (h : ExecForm i s t) (hs : s.Inv)
    (hrun : s.phase = .running) (hend : s.ip + i.length ≤ Config.memLimit) : t.Inv := by
  have hnext {u : State} {n : Nat} (hip : u.ip = s.ip) (hn : i.length = n) :
      ((u.ip + n : Nat) : Int) ≤ Config.wmax := by
    rw [hip, ← hn]
    exact natCast_le_wmax hend
  cases h with
  | fault k => exact hs.takeFault hrun k
  | overflow d hw => exact (hs.memSlot (writeAddress_lt hw)).takeFault (by simpa using hrun) _
  | store d r hw hd ha =>
    have hlength : i.length = 4 := by rw [Instr.length, arity_of_threeOperand ha]
    exact ((hs.memSlot hd).memWrite (lt_memSlot_len d s) r).advance (hnext (by simp) hlength)
  | taken m p d v hi hd =>
    subst hi
    have hin := (hs.memSlot (writeTarget_lt hd)).takeDraw.record (e := .taken v)
      (by simpa using hrun) (by simp)
    exact (hin.memWrite (by simpa using lt_memSlot_len d s) v).advance (hnext (by simp) rfl)
  | inputTimeout m p d hi hd =>
    exact (hs.memSlot (writeTarget_lt hd)).takeDraw.takeFault (by simpa using hrun) _
  | inputHold m p d hi hd =>
    exact (hs.memSlot (writeTarget_lt hd)).takeDraw.hold (by simpa using hrun) _
  | delivered m p v hi =>
    subst hi
    exact (hs.takeDraw.record (by simpa using hrun) (by simp)).advance (hnext (by simp) rfl)
  | outputTimeout m p v => exact hs.takeDraw.takeFault (by simpa using hrun) _
  | outputHold m p v => exact hs.takeDraw.hold (by simpa using hrun) _
  | jumped m p0 p1 c g => exact hs.jumpTo (toNat_toInt_le_wmax g)
  | notJumped m p0 p1 c g hc hg hi =>
    have hlength : i.length = 3 := by rcases hi with ⟨rfl, -⟩ | ⟨rfl, -⟩ <;> rfl
    exact hs.advance (hnext rfl hlength)
  | based m p v r hi =>
    subst hi
    exact (hs.setBase r).advance (hnext rfl rfl)
  | halted => exact hs.haltEngine hrun

/-- Settles O46: a stopped engine stays, a fault of fetch keeps the invariant, and so does every
form of an instruction (`ExecForm.inv`). -/
theorem stepKeepsTheStateInvariant : Obligations.StepKeepsTheStateInvariant := by
  intro s t hs hstep
  rcases step_cases hstep with ⟨-, rfl⟩ | ⟨hrun, k, -, rfl⟩ | ⟨hrun, i, hf, rfl⟩
  · exact hs
  · exact hs.takeFault hrun k
  · exact (execState_form i s).inv hs hrun (fetchInstr_ok hf)

/-! ### The meaning of a hold -/

theorem State.holdMatches_of_idle {s : State} (h : s.wait = .idle) : s.HoldMatches :=
  ⟨fun hw => by simp [h] at hw, fun v hw => by simp [h] at hw⟩

/-- The two holds leave every word and `ip`, so the same instruction is fetched and resolves as
before; every other form leaves no hold. -/
theorem ExecForm.holdMatches {i : Instr} {s t : State} (h : ExecForm i s t)
    (hf : fetchInstr s = .ok i) : t.HoldMatches := by
  cases h with
  | inputHold m p d hi hd =>
    have hfetch : fetchInstr (hold .input (takeDraw (memSlot d s))) = fetchInstr s :=
      fetchInstr_congr (by simp [memRead_after_memSlot]) (by simp)
    refine ⟨fun _ => ⟨m, p, d, by rw [hfetch, hf, hi], ?_, ?_⟩, by simp⟩
    · exact (writeTarget_congr (by simp) m.m0 p).trans hd
    · simpa using lt_memSlot_len d s
  | outputHold m p v hi hv =>
    have hfetch : fetchInstr (hold (.output v) (takeDraw s)) = fetchInstr s :=
      fetchInstr_congr (by simp) (by simp)
    refine ⟨by simp, fun w hw => ⟨m, p, by rw [hfetch, hf, hi], ?_⟩⟩
    obtain rfl : v = w := by simpa using hw
    exact (readParam_congr (by simp) (by simp) m.m0 p).trans hv
  | fault | overflow | store | taken | inputTimeout | delivered | outputTimeout | jumped
  | notJumped | based | halted => exact State.holdMatches_of_idle rfl

/-- Settles O47: only a step that holds leaves a hold, and it is its own
(`ExecForm.holdMatches`). -/
theorem stepKeepsTheHoldMeaning : Obligations.StepKeepsTheHoldMeaning := by
  intro s t hs hstep
  rcases step_cases hstep with ⟨-, rfl⟩ | ⟨-, k, -, rfl⟩ | ⟨-, i, hf, rfl⟩
  · exact hs
  · exact State.holdMatches_of_idle rfl
  · exact (execState_form i s).holdMatches hf

/-! ### States with the same words: what each operation keeps -/

theorem memRead_memWrite {s : State} (h : Memory.wf s.mem = true) {d : Nat} (hd : d < s.len)
    (v : Word) (x : Nat) : memRead x (memWrite d v s) = if x = d then v else memRead x s := by
  split
  · next hx => rw [hx, memRead_memWrite_same h hd]
  · next hx => exact memRead_memWrite_other s hx v

section sameWords

variable {s t : State} (h : s.SameWords t)
include h

theorem State.SameWords.takeFault (k : FaultKind) : (takeFault k s).SameWords (takeFault k t) :=
  ⟨h.words, h.ip, h.rb, rfl, rfl, h.ports, h.host, h.freeDraws⟩

theorem State.SameWords.advance (n : Nat) : (advance n s).SameWords (advance n t) :=
  ⟨h.words, by simp [h.ip], h.rb, h.phase, rfl, h.ports, h.host, h.freeDraws⟩

theorem State.SameWords.jumpTo (n : Nat) : (jumpTo n s).SameWords (jumpTo n t) :=
  ⟨h.words, rfl, h.rb, h.phase, rfl, h.ports, h.host, h.freeDraws⟩

theorem State.SameWords.setBase (r : Word) : (setBase r s).SameWords (setBase r t) :=
  ⟨h.words, h.ip, rfl, h.phase, h.wait, h.ports, h.host, h.freeDraws⟩

theorem State.SameWords.record (e : PortEvent) : (record e s).SameWords (record e t) :=
  ⟨h.words, h.ip, h.rb, h.phase, h.wait, by simp [h.ports], h.host, h.freeDraws⟩

theorem State.SameWords.haltEngine : (haltEngine s).SameWords (haltEngine t) :=
  ⟨h.words, h.ip, h.rb, rfl, rfl, by simp [h.ports], h.host, h.freeDraws⟩

theorem State.SameWords.hold (w : Wait) : (hold w s).SameWords (hold w t) :=
  ⟨h.words, h.ip, h.rb, h.phase, rfl, h.ports, h.host, h.freeDraws⟩

theorem State.SameWords.takeDraw : (takeDraw s).SameWords (takeDraw t) := by
  constructor <;> simp [h.words, h.ip, h.rb, h.phase, h.wait, h.ports, h.host, h.freeDraws]

theorem State.SameWords.memSlot (d : Nat) : (memSlot d s).SameWords (memSlot d t) := by
  constructor <;> simp [memRead_after_memSlot, h.words, h.ip, h.rb, h.phase, h.wait, h.ports,
    h.host, h.freeDraws]

theorem State.SameWords.memWrite (hs : Memory.wf s.mem = true) (ht : Memory.wf t.mem = true)
    {d : Nat} (hds : d < s.len) (hdt : d < t.len) (v : Word) :
    (memWrite d v s).SameWords (memWrite d v t) :=
  ⟨fun x => by rw [memRead_memWrite hs hds, memRead_memWrite ht hdt, h.words],
    h.ip, h.rb, h.phase, h.wait, h.ports, h.host, h.freeDraws⟩

/-! ### States with the same words: resolution and the instructions -/

theorem State.SameWords.readParam (m : Mode) (raw : Word) :
    readParam m raw s = readParam m raw t := readParam_congr h.words h.rb m raw

theorem State.SameWords.writeTarget (m : Mode) (raw : Word) :
    writeTarget m raw s = writeTarget m raw t := writeTarget_congr h.rb m raw

theorem State.SameWords.resolveRR (m : Modes) (p0 p1 : Word) :
    resolveRR m p0 p1 s = resolveRR m p0 p1 t := by
  simp only [Machine.resolveRR, h.readParam]

theorem State.SameWords.hostDraw : hostDraw s = hostDraw t := hostDraw_congr h.host h.freeDraws

variable (hs : Memory.wf s.mem = true) (ht : Memory.wf t.mem = true)

include hs ht in
theorem State.SameWords.threeOperand (f : Word → Word → Except FaultKind Word) (m : Modes)
    (p0 p1 p2 : Word) : (threeOperand f m p0 p1 p2 s).SameWords (threeOperand f m p0 p1 p2 t) := by
  rcases threeOperand_cases f m p0 p1 p2 s with
    ⟨k, hk, e⟩ | ⟨a, b, d, k, ha, hb, hd, hk, e⟩ | ⟨a, b, d, r, ha, hb, hd, hr, e⟩ <;> rw [e]
  · have hk' : resolveRRW m p0 p1 p2 t = .error k := by
      rwa [resolveRRW_error_iff, h.resolveRR, h.writeTarget, ← resolveRRW_error_iff] at hk
    rw [threeOperand_resolution_fault hk']
    exact h.takeFault k
  · rw [h.readParam] at ha hb
    rw [h.writeTarget] at hd
    rw [threeOperand_handler_fault ha hb hd hk]
    exact (h.memSlot d).takeFault k
  · rw [h.readParam] at ha hb
    rw [h.writeTarget] at hd
    rw [threeOperand_stores ha hb hd hr]
    exact ((h.memSlot d).memWrite (wf_memSlot hs d) (wf_memSlot ht d) (lt_memSlot_len d s)
      (lt_memSlot_len d t) r).advance 4

theorem State.SameWords.conditionalJump (taken : Word → Bool) (m : Modes) (p0 p1 : Word) :
    (conditionalJump taken m p0 p1 s).SameWords (conditionalJump taken m p0 p1 t) := by
  simp only [Machine.conditionalJump, ← h.resolveRR]
  split
  · exact h.takeFault _
  · split
    · split
      · exact h.takeFault _
      · exact h.jumpTo _
    · exact h.advance 3

theorem State.SameWords.offsetBase (mode : OverflowMode) (m : Modes) (p0 : Word) :
    (offsetBase mode m p0 s).SameWords (offsetBase mode m p0 t) := by
  simp only [Machine.offsetBase, ← h.readParam, ← h.rb]
  split
  · exact h.takeFault _
  · split
    · exact h.takeFault _
    · exact (h.setBase _).advance 2

include hs ht in
theorem State.SameWords.inputWait {d : Nat} (hds : d < s.len) (hdt : d < t.len) :
    (inputWait d s).SameWords (inputWait d t) := by
  simp only [Machine.inputWait, ← h.hostDraw]
  split
  · exact ((h.takeDraw.record _).memWrite (by simpa using hs) (by simpa using ht)
      (by simpa using hds) (by simpa using hdt) _).advance 2
  · split
    · exact h.takeDraw.takeFault _
    · exact h.takeDraw.hold _

theorem State.SameWords.outputWait (v : Word) : (outputWait v s).SameWords (outputWait v t) := by
  simp only [Machine.outputWait, ← h.hostDraw]
  split
  · exact (h.takeDraw.record _).advance 2
  · split
    · exact h.takeDraw.takeFault _
    · exact h.takeDraw.hold _

include hs ht in
/-- Every instruction answers the same words in states with the same words. -/
theorem State.SameWords.execState (i : Instr) : (execState i s).SameWords (execState i t) := by
  cases i with
  | add m p0 p1 p2 | mul m p0 p1 p2 => exact h.threeOperand hs ht _ m p0 p1 p2
  | lt m p0 p1 p2 => exact h.threeOperand hs ht (fun a b => .ok (lessResult a b)) m p0 p1 p2
  | eq m p0 p1 p2 => exact h.threeOperand hs ht (fun a b => .ok (equalResult a b)) m p0 p1 p2
  | input m p =>
    cases hd : Machine.writeTarget m.m0 p s with
    | error k =>
      rw [execState_input_fault hd, execState_input_fault (h.writeTarget _ _ ▸ hd)]
      exact h.takeFault k
    | ok d =>
      rw [execState_input_wait hd, execState_input_wait (h.writeTarget _ _ ▸ hd)]
      exact (h.memSlot d).inputWait (wf_memSlot hs d) (wf_memSlot ht d) (lt_memSlot_len d s)
        (lt_memSlot_len d t)
  | output m p =>
    cases hv : Machine.readParam m.m0 p s with
    | error k =>
      rw [execState_output_fault hv, execState_output_fault (h.readParam _ _ ▸ hv)]
      exact h.takeFault k
    | ok v =>
      rw [execState_output_wait hv, execState_output_wait (h.readParam _ _ ▸ hv)]
      exact h.outputWait v
  | jt m p0 p1 | jf m p0 p1 => exact h.conditionalJump _ m p0 p1
  | arb m p => exact h.offsetBase _ m p
  | halt m => exact h.haltEngine

end sameWords

/-- Settles O50: both engines are in one phase and fetch one instruction, which answers the same
words in both states (`State.SameWords.execState`). -/
theorem lengthIsUnobservable : Obligations.LengthIsUnobservable := by
  intro s s' t t' hs hs' h hstep hstep'
  have hfetch : fetchInstr s = fetchInstr s' := fetchInstr_congr h.words h.ip
  rcases step_cases hstep with ⟨hstop, rfl⟩ | ⟨hrun, k, hf, rfl⟩ | ⟨hrun, i, hf, rfl⟩
  · rw [step_of_not_running (h.phase ▸ hstop)] at hstep'
    cases hstep'
    exact h
  · rw [step_of_fetch_fault (h.phase ▸ hrun) (hfetch ▸ hf)] at hstep'
    cases hstep'
    exact h.takeFault k
  · obtain rfl := step_eq_execState (h.phase ▸ hrun) (hfetch ▸ hf) hstep'
    exact h.execState hs.memCanonical hs'.memCanonical i

end Sys2Proof.Machine
end

section
/-! PROOFS. Steps one after another: a store seen by the next fetch (20_memory.md section 7), a hold
redone whole (42_io.md R82), and `RUN` (40_execution_cycle.md R73). -/

namespace Sys2Proof.Machine

open Sys2Proof

/-! ### A store to the next instruction word -/

/-- A completed instruction with a write address is a store or an input transfer: it leaves its
value there and advances over its own words. -/
theorem ExecForm.stored_of_completed {i : Instr} {s t : State} {d : Nat} (h : ExecForm i s t)
    (hs : s.Inv) (ht : t.phase = .running) (hwait : t.wait = .idle)
    (hw : writeAddress i s = some d) :
    t.ip = s.ip + i.length ∧ s.storedValue i (memRead d t).toInt := by
  have hjt (m p0 p1) : i ≠ .jt m p0 p1 := by rintro rfl; cases hw
  have hjf (m p0 p1) : i ≠ .jf m p0 p1 := by rintro rfl; cases hw
  refine ⟨by rw [h.ip_of_completed ht hwait hjt hjf, Instr.length, Nat.add_assoc], ?_⟩
  cases h with
  | store d' r hw' hd ha hv =>
    obtain rfl : d' = d := by simpa [hw'] using hw
    simpa [memRead_store hs.memCanonical] using hv
  | taken m p d' v hi hd ho =>
    subst hi
    obtain rfl : d' = d := by simpa [writeAddress_input hd] using hw
    exact ⟨v, ho, (stores_of_taken hs d' v).1⟩
  | fault | overflow | inputTimeout | outputTimeout | halted => simp at ht
  | inputHold | outputHold => simp at hwait
  | delivered m p v hi | based m p v r hi => subst hi; cases hw
  | jumped m p0 p1 c g hc hg h0 hi => simp [hjt, hjf] at hi
  | notJumped m p0 p1 c g hc hg hi => simp [hjt, hjf] at hi

/-- Settles O45: the store is what memory reads at the new `ip`
(`ExecForm.stored_of_completed`), and the fetch reads memory. -/
theorem storeIsSeenByTheNextFetch : Obligations.StoreIsSeenByTheNextFetch := by
  intro s t i hs hrun hf hstep ht hwait hw
  have hip : t.ip < Config.memLimit := writeAddress_lt hw
  obtain rfl := step_eq_execState hrun hf hstep
  obtain ⟨hnext, hvalue⟩ := (execState_form i s).stored_of_completed hs ht hwait hw
  refine ⟨hnext, _, fetchWord_of_lt hip, hvalue, fun e hd => ?_, fun op m hd => ⟨fun hlt => ?_,
    fun hbeyond => ?_⟩⟩
  · exact step_of_fetch_fault ht (fetchInstr_of_decode_error hip hd)
  · exact step_of_fetch ht (fetchInstr_of_decode_ok hd hlt)
  · exact step_of_fetch_fault ht (fetchInstr_of_raws_beyond hip hd hbeyond)

/-! ### A hold, redone -/

section hold

variable (w : Wait) (s : State)

theorem takeDraw_hold : takeDraw (hold w s) = hold w (takeDraw s) := by
  cases h : s.host <;> simp [takeDraw, hold, h]

theorem memSlot_hold (d : Nat) : memSlot d (hold w s) = hold w (memSlot d s) := by
  by_cases h : s.len ≤ d <;> simp [memSlot, hold, h]

theorem takeDraw_memSlot (d : Nat) : takeDraw (memSlot d s) = memSlot d (takeDraw s) := by
  by_cases h : s.len ≤ d <;> cases hh : s.host <;> simp [takeDraw, memSlot, h, hh]

theorem hostDraw_hold : hostDraw (hold w s) = hostDraw s := rfl

/-- The wait of an Input does not see a hold: every end of it sets the field anew. -/
theorem inputWait_hold (d : Nat) : inputWait d (hold w s) = inputWait d s := by
  simp only [inputWait, hostDraw_hold, takeDraw_hold]
  split
  · rfl
  · split <;> rfl

/-- The wait of an Output does not see a hold either. -/
theorem outputWait_hold (v : Word) : outputWait v (hold w s) = outputWait v s := by
  simp only [outputWait, hostDraw_hold, takeDraw_hold]
  split
  · rfl
  · split <;> rfl

end hold

/-- The `MemSlot` of the first attempt leaves the second one nothing to grow. -/
theorem execState_input_again {m : Modes} {p : Word} {s : State} {d : Nat}
    (hd : writeTarget m.m0 p s = .ok d) (w : Wait) :
    execState (.input m p) (hold w (takeDraw (memSlot d s))) =
      execState (.input m p) (takeDraw s) := by
  rw [execState_input_wait ((writeTarget_congr (by simp) m.m0 p).trans hd),
    execState_input_wait ((writeTarget_congr (by simp) m.m0 p).trans hd), memSlot_hold,
    takeDraw_memSlot, memSlot_again, inputWait_hold]

theorem execState_output_again {m : Modes} {p v : Word} {s : State}
    (hv : readParam m.m0 p s = .ok v) (w : Wait) :
    execState (.output m p) (hold w (takeDraw s)) = execState (.output m p) (takeDraw s) := by
  rw [execState_output_wait ((readParam_congr (by simp) (by simp) m.m0 p).trans hv),
    execState_output_wait ((readParam_congr (by simp) (by simp) m.m0 p).trans hv), outputWait_hold]

/-- An attempt from a state with the same words, `ip` and phase executes the same instruction. -/
theorem step_of_same_fetch {s u : State} {i : Instr} (hrun : s.phase = .running)
    (hf : fetchInstr s = .ok i) (hw : ∀ a, memRead a u = memRead a s) (hip : u.ip = s.ip)
    (hp : u.phase = s.phase) : step u = .next (execState i u) := by
  rw [step_of_fetch (hp.trans hrun) ((fetchInstr_congr hw hip).trans hf), exec_eq_next]

/-- Settles O49: a hold comes from the two waits alone, and there the next attempt executes the same
instruction with the same outcome as from the state before. -/
theorem heldStepIsRedoneWhole : Obligations.HeldStepIsRedoneWhole := by
  intro s t hrun hstep hwait
  have hredone {i : Instr} (hform : ExecForm i s t) (hf : fetchInstr s = .ok i) :
      step t = step (takeDraw s) := by
    rw [step_of_same_fetch (u := takeDraw s) hrun hf (by simp) (by simp) (by simp)]
    cases hform with
    | inputHold m p d hi hd =>
      subst hi
      rw [step_of_same_fetch hrun hf (by simp [memRead_after_memSlot]) (by simp) (by simp),
        execState_input_again hd]
    | outputHold m p v hi hv =>
      subst hi
      rw [step_of_same_fetch hrun hf (by simp) (by simp) (by simp), execState_output_again hv]
    | fault | overflow | store | taken | inputTimeout | delivered | outputTimeout | jumped
    | notJumped | based | halted => exact absurd rfl hwait
  rcases step_cases hstep with ⟨hstop, -⟩ | ⟨-, k, -, rfl⟩ | ⟨-, i, hf, rfl⟩
  · exact absurd hrun hstop
  · exact absurd rfl hwait
  · exact hredone (execState_form i s) hf

/-! ### `RUN` (R73) -/

theorem run_of_not_running {s : State} (h : s.phase ≠ .running) (n : Nat) :
    run n s = .next s := by
  cases n with
  | zero => rfl
  | succ n =>
    unfold run
    split
    · rfl
    · rfl
    · next hrun => exact absurd hrun h

theorem run_succ_of_running {s t : State} (h : s.phase = .running) (hstep : step s = .next t)
    (n : Nat) : run (n + 1) s = run n t := by
  simp only [run, h, hstep]

theorem core_run_succ {s t : State} (hstep : step s = .next t) (n : Nat) :
    Host.Core.run core (n + 1) s = Host.Core.run core n t := by
  have hcore : core.step s = .next t := hstep
  simp only [Host.Core.run, hcore]

theorem run_eq_core_run (n : Nat) (s : State) : run n s = Host.Core.run core n s := by
  induction n generalizing s with
  | zero => rfl
  | succ n ih =>
    by_cases hrun : s.phase = .running
    · obtain ⟨t, hstep⟩ := everyStepAnswersNext s
      rw [run_succ_of_running hrun hstep, core_run_succ hstep, ih]
    · rw [core_run_succ (step_of_not_running hrun), ← ih, run_of_not_running hrun,
        run_of_not_running hrun]

/-- A run that has ended is not changed by more attempts. -/
theorem run_add_of_stopped {n : Nat} {s t : State} (h : run n s = .next t)
    (ht : t.phase ≠ .running) (k : Nat) : run (n + k) s = .next t := by
  induction n generalizing s with
  | zero =>
    cases h
    exact run_of_not_running ht _
  | succ n ih =>
    by_cases hrun : s.phase = .running
    · obtain ⟨u, hstep⟩ := everyStepAnswersNext s
      rw [run_succ_of_running hrun hstep] at h
      rw [Nat.add_right_comm, run_succ_of_running hrun hstep, ih h]
    · rw [run_of_not_running hrun] at h ⊢
      exact h

/-- Settles O56, by induction on the number of attempts. -/
theorem runIsRepeatedStep : Obligations.RunIsRepeatedStep :=
  ⟨run_eq_core_run, fun _ k _ _ h ht => run_add_of_stopped h ht k⟩

end Sys2Proof.Machine
end

section
/-! PROOFS. The host's side: the fields of `STATUS` (10_state.md R17), the wait bits, reset and
`LOAD` (70_reset_and_hazards.md section 1), and words placed at `ip`. -/

namespace Sys2Proof.Machine

open Sys2Proof

/-! ### `STATUS` (R17, R97) -/

theorem Phase.code_le (p : Phase) : p.code ≤ 2 := by cases p <;> simp [Phase.code]

theorem FaultKind.code_le (k : FaultKind) : k.code ≤ 8 := by cases k <;> decide

theorem Phase.faultCode_le (p : Phase) : p.faultCode ≤ 8 := by
  cases p with
  | running | halted => exact Nat.zero_le 8
  | faulted k => exact k.code_le

theorem Wait.inBit_le (w : Wait) : w.inBit ≤ 1 := by cases w <;> simp [Wait.inBit]

theorem Wait.outBit_le (w : Wait) : w.outBit ≤ 1 := by cases w <;> simp [Wait.outBit]

theorem Wait.inBit_eq_one_iff {w : Wait} : w.inBit = 1 ↔ w = .input := by
  cases w <;> simp [Wait.inBit]

theorem Wait.outBit_eq_one_iff {w : Wait} : w.outBit = 1 ↔ ∃ v, w = .output v := by
  cases w <;> simp [Wait.outBit]

/-- The four fields of `STATUS`, each within its bits, and nothing above them. -/
theorem status_fields (s : State) :
    (status s).toNat % 4 = s.phase.code ∧ (status s).toNat / 4 % 16 = s.phase.faultCode ∧
      (status s).toNat / 64 % 2 = s.wait.inBit ∧ (status s).toNat / 128 % 2 = s.wait.outBit ∧
      (status s).toNat / 256 = 0 := by
  have := s.phase.code_le
  have := s.phase.faultCode_le
  have := s.wait.inBit_le
  have := s.wait.outBit_le
  have hvalue : (status s).toNat =
      s.phase.code + 4 * s.phase.faultCode + 64 * s.wait.inBit + 128 * s.wait.outBit := by
    rw [status, BitVec.toNat_ofNat, Nat.mod_eq_of_lt (by omega)]
  omega

/-- Settles O51: the fields of the word (`status_fields`), each by the cases of what it shows. -/
theorem statusWordFields : Obligations.StatusWordFields := by
  intro s
  obtain ⟨hphase, hfault, hin, hout, habove⟩ := status_fields s
  refine ⟨?_, ?_, ?_, ?_, habove⟩
  · rw [hphase]
    cases s.phase <;> rfl
  · rw [hfault]
    cases s.phase with
    | running | halted => rfl
    | faulted k => cases k <;> rfl
  · rw [hin, Wait.inBit_eq_one_iff]
  · rw [hout, Wait.outBit_eq_one_iff]

/-! ### The wait bits (R17, R82) -/

theorem ExecForm.of_wait_input {i : Instr} {s t : State} (h : ExecForm i s t)
    (hw : t.wait = .input) : ∃ m p d, i = .input m p ∧ writeTarget m.m0 p s = .ok d ∧
      (hostDraw s).offered = none ∧ (hostDraw s).timedOut = false := by
  cases h with
  | inputHold m p d hi hd ho hx => exact ⟨m, p, d, hi, hd, ho, hx⟩
  | fault | overflow | store | taken | inputTimeout | delivered | outputTimeout | outputHold
  | jumped | notJumped | based | halted => simp at hw

theorem ExecForm.of_wait_output {i : Instr} {s t : State} {v : Word} (h : ExecForm i s t)
    (hw : t.wait = .output v) : ∃ m p, i = .output m p ∧ readParam m.m0 p s = .ok v ∧
      (hostDraw s).outReady = false ∧ (hostDraw s).timedOut = false := by
  cases h with
  | outputHold m p v' hi hv ho hx =>
    obtain rfl : v' = v := by simpa using hw
    exact ⟨m, p, hi, hv, ho, hx⟩
  | fault | overflow | store | taken | inputTimeout | inputHold | delivered | outputTimeout
  | jumped | notJumped | based | halted => simp at hw

/-- Settles O52: a hold is left by its own form alone, and its guards bring that form about. -/
theorem waitBitsShowTheLastStep : Obligations.WaitBitsShowTheLastStep := by
  intro s t hrun hstep
  have hform (hwait : t.wait ≠ .idle) : ∃ i, fetchInstr s = .ok i ∧ ExecForm i s t := by
    rcases step_cases hstep with ⟨hstop, -⟩ | ⟨-, k, -, rfl⟩ | ⟨-, i, hf, rfl⟩
    · exact absurd hrun hstop
    · exact absurd rfl hwait
    · exact ⟨i, hf, execState_form i s⟩
  refine ⟨⟨fun hw => ?_, ?_⟩, fun v => ⟨fun hw => ?_, ?_⟩⟩
  · obtain ⟨i, hf, h⟩ := hform (by simp [hw])
    obtain ⟨m, p, d, rfl, hguards⟩ := h.of_wait_input hw
    exact ⟨m, p, d, hf, hguards⟩
  · rintro ⟨m, p, d, hf, hd, ho, hx⟩
    rw [step_eq_execState hrun hf hstep, execState_input_of_not_offered hd ho]
    simp [hx]
  · obtain ⟨i, hf, h⟩ := hform (by simp [hw])
    obtain ⟨m, p, rfl, hguards⟩ := h.of_wait_output hw
    exact ⟨m, p, hf, hguards⟩
  · rintro ⟨m, p, hf, hv, ho, hx⟩
    rw [step_eq_execState hrun hf hstep, execState_output_of_not_ready hv ho]
    simp [hx]

/-! ### Reset and `LOAD` -/

/-- Settles O55: every field is the loaded program's, which is empty. -/
theorem resetIsLoadOfTheEmptyProgram : Obligations.ResetIsLoadOfTheEmptyProgram :=
  ⟨load_of_loadable rfl State.reset, rfl, rfl, rfl, rfl, rfl, rfl⟩

theorem loaded_inv {program : List Int} (h : loadable program = true) (s : State) :
    (s.loaded program).Inv where
  memCanonical := Memory.wf_ofWords 0 _
  zeroPastLen := fun c hc => by simpa [State.loaded] using (Memory.mem_ofWords hc).2
  lenBound := (loadable_iff.1 h).1
  ipRange := natCast_le_wmax (Nat.zero_le _)
  waitRunning := fun _ => rfl
  eosNotBefore := fun _ => List.not_mem_nil
  eosOnceLast := fun hp => by cases hp

/-- Settles O48: an accepted program's state meets both (`loaded_inv`), and reset is the state of
the empty program (`resetIsLoadOfTheEmptyProgram`). -/
theorem resetAndLoadMeetTheInvariants : Obligations.ResetAndLoadMeetTheInvariants := by
  have hload (program : List Int) (s t : State) (h : load program s = some t) :
      t.Inv ∧ t.HoldMatches := by
    by_cases hp : loadable program = true
    · rw [load_of_loadable hp] at h
      cases h
      exact ⟨loaded_inv hp s, State.holdMatches_of_idle rfl⟩
    · rw [load_of_not_loadable hp] at h
      cases h
  exact ⟨hload [] _ _ resetIsLoadOfTheEmptyProgram.1, hload⟩

/-! ### Words placed at `ip` (logs 9 and 13) -/

theorem placeWords_ip_phase (ws : List Word) (a : Nat) (s : State) :
    (placeWords ws a s).ip = s.ip ∧ (placeWords ws a s).phase = s.phase := by
  induction ws generalizing a s with
  | nil => exact ⟨rfl, rfl⟩
  | cons w ws ih =>
    obtain ⟨hip, hphase⟩ := ih (a + 1)
      (if a < Config.memLimit then memWrite a w (memSlot a s) else s)
    rw [placeWords, hip, hphase]
    split <;> simp

theorem memRead_placeWords_below {ws : List Word} {a x : Nat} (h : x < a) (s : State) :
    memRead x (placeWords ws a s) = memRead x s := by
  induction ws generalizing a s with
  | nil => rfl
  | cons w ws ih =>
    rw [placeWords, ih (by omega)]
    split
    · rw [memRead_memWrite_other _ (Nat.ne_of_lt h), memRead_after_memSlot]
    · rfl

/-- Below the limit each placed word is read back where it was placed. -/
theorem memRead_placeWords {ws : List Word} {a k : Nat} {s : State}
    (hwf : Memory.wf s.mem = true) (hlimit : a + ws.length ≤ Config.memLimit)
    (hk : k < ws.length) : memRead (a + k) (placeWords ws a s) = ws[k] := by
  induction ws generalizing a k s with
  | nil => cases hk
  | cons w ws ih =>
    rw [List.length_cons] at hlimit hk
    rw [placeWords, if_pos (by omega)]
    cases k with
    | zero =>
      rw [Nat.add_zero, memRead_placeWords_below (Nat.lt_succ_self a), memRead_store hwf,
        if_pos rfl]
      rfl
    | succ k =>
      rw [show a + (k + 1) = a + 1 + k by omega,
        ih (wf_memWrite (wf_memSlot hwf a) a w) (by omega) (by omega)]
      rfl

theorem tableWords_length (nbits w : Nat) : (tableWords nbits w).length = 4 := by
  simp [tableWords]

theorem decode_of_decodeTableWord {nbits w : Nat} {i : Instr}
    (h : decodeTableWord nbits w = some i) :
    ∃ rest, decode (tableWords nbits w) = .ok (i, rest) := by
  unfold decodeTableWord at h
  split at h
  · cases h
  · next j rest hd =>
    cases h
    exact ⟨rest, hd⟩

theorem withFetchWord_ip (s : State) (nbits w : Nat) : (s.withFetchWord nbits w).ip = s.ip :=
  (placeWords_ip_phase _ _ _).1

theorem withFetchWord_phase (s : State) (nbits w : Nat) :
    (s.withFetchWord nbits w).phase = .running :=
  (placeWords_ip_phase _ _ _).2

/-- With room below the limit, the window at `ip` is the words that were placed there. -/
theorem fetchWindow_withFetchWord {s : State} (hs : s.Inv) (h : s.ip + 4 ≤ Config.memLimit)
    (nbits w : Nat) : fetchWindow (s.withFetchWord nbits w) = tableWords nbits w := by
  have hlength := tableWords_length nbits w
  refine List.ext_getElem ?_ fun k hk hk' => ?_
  · rw [fetchWindow_length, withFetchWord_ip, hlength]
    omega
  · rw [fetchWindow_getElem, withFetchWord_ip]
    exact memRead_placeWords (s := { s with phase := .running }) hs.memCanonical (by omega) hk'

/-- Settles O57: the window decodes to the instruction (`fetchWindow_withFetchWord`), so it is the
one fetched. -/
theorem placedInstructionIsTheNextRun : Obligations.PlacedInstructionIsTheNextRun := by
  intro s nbits w i hs hroom hi
  obtain ⟨rest, hd⟩ := decode_of_decodeTableWord hi
  rw [← fetchWindow_withFetchWord hs hroom] at hd
  exact stepRunsTheDecodedInstruction _ i rest (withFetchWord_phase s nbits w) hd

end Sys2Proof.Machine
end
